-- ==== Sys2Proof/Word.lean ====
section
/-! DEFINITION. The word type of the machine: one byte is the width of a register, a memory cell, an address and an
operand (spec/00_scope.md R6: XLEN = 8, ALEN = 8). -/

namespace Sys2Proof

/-- A register, a memory cell or an operand byte: an unsigned integer 0 to 255, bits 7 down to 0 (R6, R9). -/
abbrev Byte := BitVec 8

/-- A memory address: a byte, so that every address computation wraps modulo 256 (R6, R50, R51). -/
abbrev Addr := BitVec 8

/-- A register number 0 to 7 (R21). -/
abbrev RegIdx := Fin 8

/-- The operand byte that names register `i`: the byte's value is the register's number (R83). -/
def regByte (i : RegIdx) : Byte := BitVec.ofNat 8 i.val

end Sys2Proof
end

