-- ==== Sys2Proof/Config.lean ====
section
/-! DEFINITION. The implementation parameters of spec/00_scope.md R6, but for the opcode map `OPC`, whose default stands
with the decoder (Sys2Proof/Decode.lean), and for `image`, the argument of `Machine.runStart`. The machine leaves no
value free: every result the spec leaves to the implementer is settled by one of its numbered rules. -/

namespace Sys2Proof.Config

/-- The handle of this configuration (R2; the spec's decision D22, it carries no behaviour). -/
def identity : String := "CORE-8/diehlkj-Computer-Architecture/v7-doc"

/-- `MEM_SIZE`, the number of memory cells (R6, R50). -/
def memSize : Nat := 256

/-- `SP`, the index of the stack-pointer register (R22). -/
abbrev sp : RegIdx := 7

/-- `SP_RESET` (R25). UNVERIFIED, unsafe: the source's literal, unaudited (the spec's D18, log entry 4). -/
def spReset : Byte := 0xF3#8

/-- `PC_RESET` (R28). -/
def pcReset : Addr := 0x00#8

/-- `LOAD_BASE`, the address of the first program byte (R233). -/
def loadBase : Addr := 0x00#8

/-- `FL_RESET` (R31). DESIGN CHOICE, unsafe: the source gives none; the spec's D4 (log entry 2). -/
def flReset : Byte := 0x00#8

/-- `MEM_FILL`, what a cell reads as that neither the loader nor a program wrote (R34).
DESIGN CHOICE, unsafe: the source gives none; the spec's D5 (log entry 3). -/
def memFill : Byte := 0x00#8

end Sys2Proof.Config
end

