-- ==== Sys2Proof/Syntax.lean ====
section
/-! DEFINITION. The closed instruction set of sixteen instructions (spec/30_encoding.md R84), its formats and widths
(R80, R81), and the two answers of a decoder (R87). -/

namespace Sys2Proof

/-- The sixteen mnemonics, in the order of R84's table. -/
inductive Mnemonic where
  | add | sub | mul | div | mod | cmp | push | pop | call | ret | jmp | jeq | jne | hlt | ldi | prn
deriving DecidableEq, Repr

/-- Every mnemonic once (R84: "a closed instruction set"). -/
def Mnemonic.all : List Mnemonic :=
  [.add, .sub, .mul, .div, .mod, .cmp, .push, .pop, .call, .ret, .jmp, .jeq, .jne, .hlt, .ldi, .prn]

/-- The formats of R81: no operand, one register, two registers, register and immediate. -/
inductive Format where
  | z | r | rr | ri
deriving DecidableEq, Repr

/-- The bytes an instruction of a format occupies (R80, R81). -/
def Format.width : Format → Nat
  | .z => 1
  | .r => 2
  | .rr => 3
  | .ri => 3

/-- Which format each mnemonic has (R84). -/
def Mnemonic.format : Mnemonic → Format
  | .add | .sub | .mul | .div | .mod | .cmp => .rr
  | .push | .pop | .call | .jmp | .jeq | .jne | .prn => .r
  | .ret | .hlt => .z
  | .ldi => .ri

/-- The width of an instruction follows from its mnemonic alone (R84, R91). -/
def Mnemonic.width (m : Mnemonic) : Nat := m.format.width

/-- An instruction: its mnemonic and the operand bytes it uses, as they stand in memory. Decoding does not look at the
operand bytes (R87) and the machine checks a register byte only where it uses it as an index (R83, R90, R193), so an
operand is the byte itself, not a register number: `WellFormed` says when it names a register. -/
inductive Instr where
  | add (ra rb : Byte)
  | sub (ra rb : Byte)
  | mul (ra rb : Byte)
  | div (ra rb : Byte)
  | mod (ra rb : Byte)
  | cmp (ra rb : Byte)
  | push (r : Byte)
  | pop (r : Byte)
  | call (r : Byte)
  | ret
  | jmp (r : Byte)
  | jeq (r : Byte)
  | jne (r : Byte)
  | hlt
  | ldi (r imm : Byte)
  | prn (r : Byte)
deriving DecidableEq, Repr

/-- The mnemonic of an instruction. -/
def Instr.mnemonic : Instr → Mnemonic
  | .add _ _ => .add
  | .sub _ _ => .sub
  | .mul _ _ => .mul
  | .div _ _ => .div
  | .mod _ _ => .mod
  | .cmp _ _ => .cmp
  | .push _ => .push
  | .pop _ => .pop
  | .call _ => .call
  | .ret => .ret
  | .jmp _ => .jmp
  | .jeq _ => .jeq
  | .jne _ => .jne
  | .hlt => .hlt
  | .ldi _ _ => .ldi
  | .prn _ => .prn

/-- The bytes an instruction occupies, its opcode byte included (R80). -/
def Instr.width (i : Instr) : Nat := i.mnemonic.width

/-- The operand bytes of an instruction in the order they stand in memory (R55, R81). -/
def Instr.operandBytes : Instr → List Byte
  | .add ra rb | .sub ra rb | .mul ra rb | .div ra rb | .mod ra rb | .cmp ra rb => [ra, rb]
  | .push r | .pop r | .call r | .jmp r | .jeq r | .jne r | .prn r => [r]
  | .ret | .hlt => []
  | .ldi r imm => [r, imm]

/-- What a decoder answers: the instruction, or that the opcode byte is none of the sixteen, by name (R87, R88). -/
inductive DecodeResult where
  | instr (i : Instr)
  | unsupported (opcode : Byte)
deriving DecidableEq, Repr

end Sys2Proof
end

