-- ==== Sys2Proof/WellFormed.lean ====
section
/-! DEFINITION. When an instruction meets the source's precondition on register operand bytes (spec/30_encoding.md R83,
R90): each is 0 to 7, that is, its bits 7:3 are 0. An immediate may be any byte. -/

namespace Sys2Proof

/-- The operand bytes that an instruction uses as register indices (R81, R84). -/
def Instr.registerBytes : Instr → List Byte
  | .add ra rb | .sub ra rb | .mul ra rb | .div ra rb | .mod ra rb | .cmp ra rb => [ra, rb]
  | .push r | .pop r | .call r | .jmp r | .jeq r | .jne r | .prn r => [r]
  | .ret | .hlt => []
  | .ldi r _ => [r]

/-- Every register operand byte names a register (R83). -/
def Instr.wellFormed (i : Instr) : Bool := i.registerBytes.all fun k => decide (k.toNat < 8)

end Sys2Proof
end

