-- ==== Sys2Proof/Decode.lean ====
section
/-! DEFINITION. The decoder, total on any bytes and rejecting by name, and the encoder, both over an opcode map `OPC`
taken as a parameter (spec/30_encoding.md R80 to R91), and the map's default. -/

namespace Sys2Proof

/-- The parameter `OPC`: from the sixteen mnemonics to opcode byte values (R85). The rules are stated for any injective
map; `Function.Injective` says so where a statement needs it. -/
abbrev OpcodeMap := Mnemonic → Byte

/-- The default `OPC` of R85. PRESUMED, unsafe: the source gives no opcode byte value; the spec takes these from the
LS-8 teaching architecture (its decision D3, log entry 1). -/
def defaultOpc : OpcodeMap
  | .add => 0b10100000#8
  | .sub => 0b10100001#8
  | .mul => 0b10100010#8
  | .div => 0b10100011#8
  | .mod => 0b10100100#8
  | .cmp => 0b10100111#8
  | .push => 0b01000101#8
  | .pop => 0b01000110#8
  | .call => 0b01010000#8
  | .ret => 0b00010001#8
  | .jmp => 0b01010100#8
  | .jeq => 0b01010101#8
  | .jne => 0b01010110#8
  | .hlt => 0b00000001#8
  | .ldi => 0b10000010#8
  | .prn => 0b01000111#8

/-- The lookup of R87: the mnemonic whose opcode value is the whole byte, if there is one. -/
def decodeOpcode (opc : OpcodeMap) (opcode : Byte) : Option Mnemonic :=
  Mnemonic.all.find? fun m => decide (opc m = opcode)

/-- The instruction of mnemonic `m` with the two fetched operand slots `a` and `b`; a slot that the format does not use
is ignored (R81, R82). -/
def Instr.ofSlots (m : Mnemonic) (a b : Byte) : Instr :=
  match m with
  | .add => .add a b
  | .sub => .sub a b
  | .mul => .mul a b
  | .div => .div a b
  | .mod => .mod a b
  | .cmp => .cmp a b
  | .push => .push a
  | .pop => .pop a
  | .call => .call a
  | .ret => .ret
  | .jmp => .jmp a
  | .jeq => .jeq a
  | .jne => .jne a
  | .hlt => .hlt
  | .ldi => .ldi a b
  | .prn => .prn a

/-- Decoding of the three fetched bytes (R87): the operand bytes play no part in choosing the instruction, and an opcode
that is not in the map is unsupported whatever its bit fields say (R86, R88). -/
def decode (opc : OpcodeMap) (opcode a b : Byte) : DecodeResult :=
  match decodeOpcode opc opcode with
  | some m => .instr (Instr.ofSlots m a b)
  | none => .unsupported opcode

/-- Decoding of any list of bytes, the first at the lowest address; a byte that is missing reads as zero. -/
def decodeBytes (opc : OpcodeMap) (bytes : List Byte) : DecodeResult :=
  decode opc (bytes.getD 0 0#8) (bytes.getD 1 0#8) (bytes.getD 2 0#8)

/-- The bytes of an instruction at ascending addresses: its opcode byte, then its operand bytes (R55, R80, R81). -/
def encode (opc : OpcodeMap) (i : Instr) : List Byte := opc i.mnemonic :: i.operandBytes

/-- The three bytes, first at the lowest address, of an instruction given as one number in which bit 0 is the least
significant bit of the first byte and a later byte's bits count on; the bits from `nbits` on are 0. -/
def tableBytes (nbits w : Nat) : List Byte :=
  let v := w % 2 ^ nbits
  [BitVec.ofNat 8 v, BitVec.ofNat 8 (v / 256), BitVec.ofNat 8 (v / 65536)]

/-- The instruction that the decoder reads, under the default map, from a row's bits `w` of spec/opcode_table.json. -/
def decodeTableWord (nbits w : Nat) : Option Instr :=
  match decodeBytes defaultOpc (tableBytes nbits w) with
  | .instr i => some i
  | .unsupported _ => none

end Sys2Proof
end

