-- ==== Sys2Proof/Machine/State.lean ====
section
/-! DEFINITION. The whole architectural state (spec/10_state.md R20): memory, the eight registers, the program counter,
the flags register, the run state with its fault record, and the output sequence; and the state right after reset. -/

namespace Sys2Proof.Machine

/-- Memory as (address, byte) pairs in one canonical form (`Memory.wf`); an address that is not listed reads as
`Config.memFill` (R34, R50). -/
abbrev Memory := List Host.Cell

/-- The causes of a fatal error (R196). -/
inductive Cause where
  /-- Decode of any step: the opcode byte is not in `OPC` (R191). The source's. -/
  | unsupportedInstruction
  /-- The ALU given a verb outside its six: no rule raises it, so no step of this model does (R192). The source's. -/
  | unsupportedALUOperation
  /-- DIV or MOD with a zero divisor (R190). The source's. -/
  | divideByZero
  /-- A register operand byte above 7 where it is used as an index (R193).
  DESIGN CHOICE of the spec (its D6, log entry 5): the source leaves the behaviour undefined. -/
  | badRegisterIndex
deriving DecidableEq, Repr

/-- The number of a cause in the fault record (R196; the spec's labels, its D9). -/
def Cause.code : Cause → Nat
  | .unsupportedInstruction => 1
  | .unsupportedALUOperation => 2
  | .divideByZero => 3
  | .badRegisterIndex => 4

/-- The diagnostic of a fatal error: its cause, the address of the faulting instruction's opcode byte, and the three
bytes fetched for it (R194). -/
structure FaultRecord where
  cause : Cause
  pc : Addr
  opcode : Byte
  a : Byte
  b : Byte
deriving DecidableEq, Repr

/-- The run state (R33). `faulted` is the spec's own third value (its D2, log entry 7), so that a stop by an error is
never taken for a stop by HLT. -/
inductive RunState where
  | running
  | halted
  | faulted (r : FaultRecord)
deriving DecidableEq, Repr

/-- The three bytes that every cycle fetches (R111). -/
structure Fetched where
  opcode : Byte
  a : Byte
  b : Byte
deriving DecidableEq, Repr

/-- The state of the machine (R20). "There is no other state". -/
structure State where
  /-- `mem`, 256 cells of one byte (R34). -/
  mem : Memory
  /-- `x[0]` to `x[7]`; `x[7]` is the stack pointer (R21, R22). -/
  regs : Vector Byte 8
  /-- `pc`; while an instruction executes, the address of its opcode byte (R26). -/
  pc : Addr
  /-- `fl`; bit 0 is the Equal flag, bits 7:1 are reserved (R29). -/
  fl : Byte
  /-- `run` (R33). -/
  run : RunState
  /-- `out`, the values PRN has emitted, oldest first (R35). -/
  out : List Byte
deriving DecidableEq, Repr

/-- Why no step exists. Both are safe: the machine has stopped for good, and nothing is claimed to happen after. -/
inductive Fault where
  /-- `step` answers it in the terminal state `halted`: the run ended normally (R33, R117). Safe. -/
  | noStepHalted
  /-- `step` answers it in the terminal state `faulted r`, with the record `r` as it stands (R201). Safe. -/
  | noStepFaulted (r : FaultRecord)
deriving DecidableEq, Repr

/-- What the model gives no meaning to. Both are safe: no state follows. -/
inductive Refusal where
  /-- An arm of `exec` without a meaning would answer it; this model has no such arm. Safe. -/
  | notModelled (mnemonic : String)
  /-- `runStart` answers it for a program image of `length` bytes, more than memory has cells (R234). Safe. -/
  | imageTooLong (length : Nat)
deriving DecidableEq, Repr

/-- What one step, or one instruction's body, answers. -/
abbrev Result := Host.Outcome State Fault Refusal

/-- The machine right after reset with nothing loaded (R38, R230): `x[0..6] = 0`, `x[7] = SP_RESET`, `pc = 0`,
`run = Running`, and by the spec's decisions D4, D5, D13 `fl = 0`, memory all `MEM_FILL`, `out` empty. -/
def State.reset : State where
  mem := []
  regs := #v[0x00#8, 0x00#8, 0x00#8, 0x00#8, 0x00#8, 0x00#8, 0x00#8, Config.spReset]
  pc := Config.pcReset
  fl := Config.flReset
  run := .running
  out := []

end Sys2Proof.Machine
end

