-- ==== Sys2Proof/Machine/Ops.lean ====
section
/-! DEFINITION. The named operations over memory, registers, program counter, output and run state, in terms of which
every instruction is written: the pseudocode primitives of spec/00_scope.md R11 and R12, the fetch (R111), the advance of
the program counter (R114), taking a fatal error (R194, R195) and a new run (R230 to R234). -/

namespace Sys2Proof.Machine

/-- The canonical form of memory: addresses strictly rising and inside the address space, and no entry that equals what
an unlisted address reads as. Equal memories are then equal lists. -/
abbrev Memory.wf (m : Memory) : Prop :=
  m.Pairwise (fun c d => c.1 < d.1) ∧ ∀ c ∈ m, c.1 < Config.memSize ∧ c.2 ≠ Config.memFill

/-- The byte in one cell (R52); a cell that is not listed holds `MEM_FILL` (R34). -/
def Memory.read : Memory → Nat → Byte
  | [], _ => Config.memFill
  | (k, v) :: m, a => if k = a then v else Memory.read m a

/-- Put a cell at its place in the rising order. -/
def Memory.insert : Memory → Nat → Byte → Memory
  | [], a, v => [(a, v)]
  | (k, w) :: m, a, v => if k < a then (k, w) :: Memory.insert m a v else (a, v) :: (k, w) :: m

/-- Write one cell (R52): the old entry goes, and the new one is listed unless it holds `MEM_FILL`. -/
def Memory.write (m : Memory) (a : Nat) (v : Byte) : Memory :=
  let rest := m.filter fun c => decide (c.1 ≠ a)
  if v = Config.memFill then rest else Memory.insert rest a v

/-- `MemRead(addr, 1)`: no side effect, cannot fail (R12, R52). -/
def State.memRead (s : State) (a : Addr) : Byte := Memory.read s.mem a.toNat

/-- `MemWrite(addr, 1, v)`: changes that one cell and nothing else, cannot fail (R12, R52). -/
def State.memWrite (s : State) (a : Addr) (v : Byte) : State :=
  { s with mem := Memory.write s.mem a.toNat v }

/-- Read register `i` (R11, R21). No register is hardwired. -/
def State.reg (s : State) (i : RegIdx) : Byte := s.regs[i]

/-- Write register `i` (R11, R21). Register 7 is an ordinary cell of the register file (R22). -/
def State.setReg (s : State) (i : RegIdx) (v : Byte) : State := { s with regs := s.regs.set i v }

/-- `pc <- target` (R11, R114). -/
def State.setPc (s : State) (a : Addr) : State := { s with pc := a }

/-- `next(w)`: the sequential advance by the instruction's width, modulo 256 (R12, R114, R28). -/
def State.advance (s : State) (w : Nat) : State := s.setPc (s.pc + BitVec.ofNat 8 w)

/-- `run <- r` (R33). -/
def State.setRun (s : State) (r : RunState) : State := { s with run := r }

/-- `emit Out(v)`: append `v` to `out` (R12, R35). -/
def State.emit (s : State) (v : Byte) : State := { s with out := s.out ++ [v] }

/-- The three bytes at the program counter; all three reads happen for every instruction and none has a side effect
(R111, R82). -/
def State.fetch (s : State) : Fetched where
  opcode := s.memRead s.pc
  a := s.memRead (s.pc + 1#8)
  b := s.memRead (s.pc + 2#8)

/-- Taking a fatal error, the machine's only exception (R194, R195, R200): the record is written into the run state and
nothing else changes; `pc` stays at the faulting instruction. Each instruction raises before it writes, so the three
bytes at `pc` are still those that were fetched for it. There is no return from a fault (R201): the one way out is a new
run, `runStart`. -/
def State.raise (s : State) (c : Cause) : State :=
  s.setRun (.faulted ⟨c, s.pc, s.fetch.opcode, s.fetch.a, s.fetch.b⟩)

/-- Write bytes at ascending addresses from `a` on, addresses taken modulo 256 (R51, R55). -/
def State.placeBytes (s : State) (a : Addr) : List Byte → State
  | [] => s
  | v :: vs => State.placeBytes (s.memWrite a v) (a + 1#8) vs

/-- Run start: the loader has put byte `k` of the image at address `k`, before the first fetch, and everything else is as
after reset (R230 to R233). An image that memory cannot hold is refused (R234, the spec's D14, log entry 13). -/
def runStart (image : List Byte) : Result :=
  if image.length ≤ Config.memSize then .next (State.reset.placeBytes Config.loadBase image)
  else .refused (.imageTooLong image.length)

end Sys2Proof.Machine
end

