-- ==== Sys2Proof/Machine/Flags.lean ====
section
/-! DEFINITION. The flags register: bit 0 is the Equal flag `E`, written by CMP only and read by JEQ and JNE only; bits 7:1
are reserved and nothing writes them (spec/10_state.md R29, R30). -/

namespace Sys2Proof.Machine

/-- The bits of `fl` that the machine does not define, bits 7:1 in place (R29). -/
def reservedBits (fl : Byte) : Byte := fl &&& 0xFE#8

/-- `fl[0]`, the Equal flag (R29). -/
def State.flagE (s : State) : Bool := s.fl.getLsbD 0

/-- `fl[0] <- e`; bits 7:1 keep their value (R29, R136). -/
def State.setFlagE (s : State) (e : Bool) : State :=
  { s with fl := reservedBits s.fl ||| (BitVec.ofBool e).setWidth 8 }

end Sys2Proof.Machine
end

