-- ==== Sys2Proof/Machine/Operands.lean ====
section
/-! DEFINITION. The one operand form that can fail: an operand byte used as a register index, `reg(k)` (spec/00_scope.md
R12, spec/30_encoding.md R83, spec/60_exceptions.md R193). The other form, LDI's immediate, is the byte itself (R83). -/

namespace Sys2Proof.Machine

/-- The register that an operand byte names, if it is 0 to 7: never a masked or wrapped index (R83, R193). -/
def regIdx (k : Byte) : Option RegIdx := if h : k.toNat < 8 then some ⟨k.toNat, h⟩ else none

/-- `i <- reg(a)` and then the rest of the body, or `raise BadRegisterIndex` with no other effect (R12, R193). -/
def withReg (a : Byte) (s : State) (body : RegIdx → State) : State :=
  match regIdx a with
  | some i => body i
  | none => s.raise .badRegisterIndex

/-- `i <- reg(a); j <- reg(b)`: the first operand byte is checked before the second (R199). -/
def withRegs (a b : Byte) (s : State) (body : RegIdx → RegIdx → State) : State :=
  withReg a s fun i => withReg b s fun j => body i j

end Sys2Proof.Machine
end

