-- ==== Sys2Proof/Machine/Alu.lean ====
section
/-! DEFINITION. The ALU, a pure function of a verb and two register values (spec/41_alu.md R130), and its instructions
ADD, SUB, MUL, DIV, MOD and CMP (R131 to R142). Each result is computed exactly and then reduced to a byte. -/

namespace Sys2Proof.Machine

/-- ADD: the sum modulo 256 (R131). -/
def aluAdd (x y : Byte) : Byte := BitVec.ofNat 8 (x.toNat + y.toNat)

/-- SUB: the difference modulo 256, the first operand the minuend (R132). -/
def aluSub (x y : Byte) : Byte := BitVec.ofInt 8 ((x.toNat : Int) - (y.toNat : Int))

/-- MUL: the low 8 bits of the product (R133, R141). -/
def aluMul (x y : Byte) : Byte := BitVec.ofNat 8 (x.toNat * y.toNat)

/-- DIV by a divisor that is not 0: the unsigned integer quotient (R134; the spec's D7, log entry 6). -/
def aluDiv (x y : Byte) : Byte := BitVec.ofNat 8 (x.toNat / y.toNat)

/-- MOD by a divisor that is not 0: the remainder that pairs with DIV's quotient (R135; the spec's D7, log entry 6). -/
def aluMod (x y : Byte) : Byte := BitVec.ofNat 8 (x.toNat % y.toNat)

/-- The body shared by the arithmetic verbs: both registers are read, then the first is written (R130, R140); no flag is
touched (R138). -/
def arith (f : Byte → Byte → Byte) (a b : Byte) (s : State) : State :=
  withRegs a b s fun i j => (s.setReg i (f (s.reg i) (s.reg j))).advance 3

/-- The body shared by DIV and MOD: as `arith`, but a zero divisor raises DivideByZero, after both indices are checked and
before the destination is written (R190, R199). -/
def arithNonzero (f : Byte → Byte → Byte) (a b : Byte) (s : State) : State :=
  withRegs a b s fun i j =>
    if s.reg j = 0#8 then s.raise .divideByZero
    else (s.setReg i (f (s.reg i) (s.reg j))).advance 3

/-- ADD ra, rb (R131). -/
def execAdd (a b : Byte) (s : State) : Result := .next (arith aluAdd a b s)

/-- SUB ra, rb (R132). -/
def execSub (a b : Byte) (s : State) : Result := .next (arith aluSub a b s)

/-- MUL ra, rb (R133). -/
def execMul (a b : Byte) (s : State) : Result := .next (arith aluMul a b s)

/-- DIV ra, rb (R134). -/
def execDiv (a b : Byte) (s : State) : Result := .next (arithNonzero aluDiv a b s)

/-- MOD ra, rb (R135). -/
def execMod (a b : Byte) (s : State) : Result := .next (arithNonzero aluMod a b s)

/-- CMP ra, rb: `E` says whether the two registers are equal; no register is written (R136). Its width of 3 is the spec's
D11 (log entry 10). -/
def execCmp (a b : Byte) (s : State) : Result :=
  .next (withRegs a b s fun i j => (s.setFlagE (decide (s.reg i = s.reg j))).advance 3)

end Sys2Proof.Machine
end

