-- ==== Sys2Proof/Machine/Branch.lean ====
section
/-! DEFINITION. JMP, JEQ and JNE (spec/44_branch.md R170 to R173). A target is the absolute address in a register; there
are no delay slots. -/

namespace Sys2Proof.Machine

/-- The jump itself: `pc <- x[reg(a)]` (R170). -/
def jumpTo (a : Byte) (s : State) : State := withReg a s fun i => s.setPc (s.reg i)

/-- JMP r (R170). -/
def execJmp (a : Byte) (s : State) : Result := .next (jumpTo a s)

/-- JEQ r: the jump if `E` is 1, else the next instruction 2 bytes on; a branch not taken does not look at its operand
(R171, R193; C2). -/
def execJeq (a : Byte) (s : State) : Result := .next (if s.flagE then jumpTo a s else s.advance 2)

/-- JNE r: the jump if `E` is 0, else the next instruction 2 bytes on (R172). -/
def execJne (a : Byte) (s : State) : Result := .next (if s.flagE then s.advance 2 else jumpTo a s)

end Sys2Proof.Machine
end

