-- ==== Sys2Proof/Machine/Stack.lean ====
section
/-! DEFINITION. PUSH and POP (spec/42_stack.md R150 to R152). The stack is memory addressed through `x[7]`; it grows
downward and wraps. Each line sees the result of the one before it, also where the operand is register 7 (R10, R152; the
spec's D16, log entry 14). -/

namespace Sys2Proof.Machine

/-- Decrement the stack pointer, then write `value`, computed in the state after the decrement, at the new stack pointer
(R150, R160). -/
def pushValue (s : State) (value : State → Byte) : State :=
  let t := s.setReg Config.sp (s.reg Config.sp - 1#8)
  t.memWrite (t.reg Config.sp) (value t)

/-- PUSH r (R150). -/
def execPush (a : Byte) (s : State) : Result :=
  .next (withReg a s fun i => (pushValue s fun t => t.reg i).advance 2)

/-- POP r: read the cell at the stack pointer into the register, then increment the stack pointer (R151). -/
def execPop (a : Byte) (s : State) : Result :=
  .next (withReg a s fun i =>
    let t := s.setReg i (s.memRead (s.reg Config.sp))
    (t.setReg Config.sp (t.reg Config.sp + 1#8)).advance 2)

end Sys2Proof.Machine
end

