-- ==== Sys2Proof/Machine/CallReturn.lean ====
section
/-! DEFINITION. CALL and RET (spec/43_call_return.md R160 to R162). Program-counter values are net effects (R114). -/

namespace Sys2Proof.Machine

/-- CALL r: push the address of the next instruction, `(pc + 2) mod 256` (the spec's D12, log entry 11), then jump to the
register's value, read after the decrement (R160; the spec's D16, log entry 14). -/
def execCall (a : Byte) (s : State) : Result :=
  .next (withReg a s fun i =>
    let t := pushValue s fun _ => s.pc + 2#8
    t.setPc (t.reg i))

/-- RET: the byte at the stack pointer becomes the program counter, then the stack pointer is incremented; it cannot fault
(R161). -/
def execRet (s : State) : Result :=
  let t := s.setPc (s.memRead (s.reg Config.sp))
  .next (t.setReg Config.sp (t.reg Config.sp + 1#8))

end Sys2Proof.Machine
end

