-- ==== Sys2Proof/Machine/HaltLoadPrint.lean ====
section
/-! DEFINITION. HLT, LDI and PRN (spec/45_halt_load_print.md R180 to R182). -/

namespace Sys2Proof.Machine

/-- HLT: `run <- Halted`; `pc` ends one past the opcode (R180; the spec's D20, log entry 17). -/
def execHlt (s : State) : Result := .next ((s.setRun .halted).advance 1)

/-- LDI r, imm: the second operand byte is the value (R181). -/
def execLdi (a imm : Byte) (s : State) : Result :=
  .next (withReg a s fun i => (s.setReg i imm).advance 3)

/-- PRN r: emit the register's value; it never waits and never fails (R182). -/
def execPrn (a : Byte) (s : State) : Result :=
  .next (withReg a s fun i => (s.emit (s.reg i)).advance 2)

end Sys2Proof.Machine
end

