-- ==== Sys2Proof/Machine/Cycle.lean ====
section
/-! DEFINITION. One turn of the fetch-decode-execute loop, over any opcode map (spec/40_fetch_decode_execute.md R110 to
R117), and placing an instruction where the next fetch reads. -/

namespace Sys2Proof.Machine

/-- The step of R117 under the opcode map `opc`. In a terminal state no step exists (R33, R117, R201); the model says so by
a fault of its own name (log entry 7). A running machine fetches three bytes, decodes, and executes the instruction, or
takes UnsupportedInstruction with no other effect (R112). -/
def cycle (opc : OpcodeMap) (s : State) : Result :=
  match s.run with
  | .halted => .fault .noStepHalted
  | .faulted r => .fault (.noStepFaulted r)
  | .running =>
    match decode opc s.fetch.opcode s.fetch.a s.fetch.b with
    | .instr i => exec i s
    | .unsupported _ => .next (s.raise .unsupportedInstruction)

/-- `s` running, with `bytes` stored where its next fetch reads. -/
def State.withFetchBytes (s : State) (bytes : List Byte) : State :=
  (s.placeBytes s.pc bytes).setRun .running

end Sys2Proof.Machine
end

