-- ==== Sys2Proof/Machine/Step.lean ====
section
/-! DEFINITION. The step of the machine with the default opcode map, and the placing of one instruction word where the
step fetches it. -/

namespace Sys2Proof.Machine

/-- One step of the machine (R117) under the default `OPC` (R85, log entry 1). -/
def step (s : State) : Host.Outcome State Fault Refusal := cycle defaultOpc s

/-- `s` with an instruction word stored at the program counter, the bits above `nbits` zero, so that the very next step
runs it. A stopped machine is set running, which its fetch needs (log entry 20). -/
def State.withFetchWord (s : State) (nbits w : Nat) : State := s.withFetchBytes (tableBytes nbits w)

end Sys2Proof.Machine
end

