-- ==== Sys2Proof/Machine/SourceLoop.lean ====
section
/-! DEFINITION. The program-counter bookkeeping as the source words it (spec/40_fetch_decode_execute.md R115): every handler
is followed by an unconditional increment of `pc` by 1, a handler with operands adds their count itself, and a handler that
redirects first subtracts 1 from its target. The step does not use this file: it is the other side of the statement that
the net effects of the instruction rules are exactly what that bookkeeping gives (R13, R246; spec/90_conflicts.md C1). -/

namespace Sys2Proof.Machine

/-- The handler adds the number of its operand bytes to `pc` (R115). -/
def addOperandCount (s : State) (n : Nat) : State := s.setPc (s.pc + BitVec.ofNat 8 n)

/-- The handler sets `pc` to the target minus 1, the offset for the uniform increment (R115). -/
def redirectTo (s : State) (target : Addr) : State := s.setPc (target - 1#8)

/-- An operand byte as a register index, with the fatal error it meets otherwise. -/
def indexOrCause (k : Byte) : Except Cause RegIdx :=
  match regIdx k with
  | some i => .ok i
  | none => .error .badRegisterIndex

/-- The source's handler of each instruction, as R115, R134, R150, R151, R160, R161 and R170 to R172 quote it: the state it
leaves, or the fatal error it meets. -/
def sourceHandler (i : Instr) (s : State) : Except Cause State :=
  match i with
  | .add a b => do
    let i ← indexOrCause a
    let j ← indexOrCause b
    return addOperandCount (s.setReg i (aluAdd (s.reg i) (s.reg j))) 2
  | .sub a b => do
    let i ← indexOrCause a
    let j ← indexOrCause b
    return addOperandCount (s.setReg i (aluSub (s.reg i) (s.reg j))) 2
  | .mul a b => do
    let i ← indexOrCause a
    let j ← indexOrCause b
    return addOperandCount (s.setReg i (aluMul (s.reg i) (s.reg j))) 2
  | .div a b => do
    let i ← indexOrCause a
    let j ← indexOrCause b
    if s.reg j = 0#8 then throw .divideByZero
    else return addOperandCount (s.setReg i (aluDiv (s.reg i) (s.reg j))) 2
  | .mod a b => do
    let i ← indexOrCause a
    let j ← indexOrCause b
    if s.reg j = 0#8 then throw .divideByZero
    else return addOperandCount (s.setReg i (aluMod (s.reg i) (s.reg j))) 2
  | .cmp a b => do
    let i ← indexOrCause a
    let j ← indexOrCause b
    return addOperandCount (s.setFlagE (decide (s.reg i = s.reg j))) 2
  | .push a => do
    let i ← indexOrCause a
    return addOperandCount (pushValue s fun t => t.reg i) 1
  | .pop a => do
    let i ← indexOrCause a
    let t := s.setReg i (s.memRead (s.reg Config.sp))
    return addOperandCount (t.setReg Config.sp (t.reg Config.sp + 1#8)) 1
  | .call a => do
    let i ← indexOrCause a
    let t := pushValue s fun _ => s.pc + 2#8
    return redirectTo t (t.reg i)
  | .ret =>
    let t := redirectTo s (s.memRead (s.reg Config.sp))
    return t.setReg Config.sp (t.reg Config.sp + 1#8)
  | .jmp a => do
    let i ← indexOrCause a
    return redirectTo s (s.reg i)
  | .jeq a =>
    if s.flagE then do
      let i ← indexOrCause a
      return redirectTo s (s.reg i)
    else return addOperandCount s 1
  | .jne a =>
    if s.flagE then return addOperandCount s 1
    else do
      let i ← indexOrCause a
      return redirectTo s (s.reg i)
  | .hlt => return s.setRun .halted
  | .ldi a imm => do
    let i ← indexOrCause a
    return addOperandCount (s.setReg i imm) 2
  | .prn a => do
    let i ← indexOrCause a
    return addOperandCount (s.emit (s.reg i)) 1

/-- Handler, then the uniform increment; a fatal error stops the loop before the increment (R115, R195). -/
def sourceBody (i : Instr) (s : State) : State :=
  match sourceHandler i s with
  | .ok t => t.setPc (t.pc + 1#8)
  | .error c => s.raise c

end Sys2Proof.Machine
end

