-- ==== Sys2Proof/Safety.lean ====
section
/-! DEFINITION. What claims about runs are stated in: how a run ends (spec/10_state.md R33, spec/60_exceptions.md R201),
the invariant of the state, and what it means that a state keeps its memory. -/

namespace Sys2Proof.Machine

/-- The run ended by HLT (R33). -/
def State.completed (s : State) : Prop := s.run = .halted

/-- The run ended by a fatal error: it is never to be counted as completed (R201). -/
def State.failed (s : State) : Prop := ∃ r, s.run = .faulted r

/-- The fault record, where there is one, names the instruction that stands at `pc` (R119, R194), and its cause is one
that a step can raise (R192). -/
def State.recordFits (s : State) : Bool :=
  match s.run with
  | .faulted r =>
    decide (r.pc = s.pc ∧ r.opcode = s.memRead s.pc ∧ r.a = s.memRead (s.pc + 1#8) ∧
      r.b = s.memRead (s.pc + 2#8) ∧ r.cause ≠ .unsupportedALUOperation)
  | _ => true

/-- The invariant: memory in its canonical form, the reserved bits of `fl` zero (R30), and a fitting fault record. -/
abbrev State.inv (s : State) : Prop :=
  Memory.wf s.mem ∧ reservedBits s.fl = 0#8 ∧ s.recordFits = true

/-- Every cell of memory reads in `t` as in `s`. -/
def sameMemory (s t : State) : Prop := ∀ a : Addr, t.memRead a = s.memRead a

/-- Every cell of memory outside `d` reads in `t` as in `s`. -/
def sameMemoryOutside (d : Addr) (s t : State) : Prop := ∀ a : Addr, a ≠ d → t.memRead a = s.memRead a

/-- Every register outside `i` holds in `t` what it holds in `s`. -/
def sameRegsOutside (i : RegIdx) (s t : State) : Prop := ∀ j : RegIdx, j ≠ i → t.reg j = s.reg j

/-- Every register holds in `t` what it holds in `s`. -/
def sameRegs (s t : State) : Prop := ∀ j : RegIdx, t.reg j = s.reg j

/-- The frame of an instruction that writes at most register `i` and is `w` bytes wide: `pc` is `w` on, and every other
register, the flags, the run state, the output and every cell of memory are as before. -/
def onlyWritesReg (i : RegIdx) (w : Nat) (s t : State) : Prop :=
  sameRegsOutside i s t ∧ t.pc = s.pc + BitVec.ofNat 8 w ∧ t.fl = s.fl ∧ t.run = s.run ∧ t.out = s.out ∧ sameMemory s t

/-- The frame of an instruction that at most moves `pc`: everything else is as before. -/
def onlyMovesPc (s t : State) : Prop :=
  sameRegs s t ∧ t.fl = s.fl ∧ t.run = s.run ∧ t.out = s.out ∧ sameMemory s t

/-- What the decoder reads, under the default opcode map, from the three bytes at the program counter. -/
def State.decoded (s : State) : DecodeResult :=
  decode defaultOpc (s.memRead s.pc) (s.memRead (s.pc + 1#8)) (s.memRead (s.pc + 2#8))

/-- `s` stopped by a fatal error of cause `c`: the record names the instruction at `pc`, and nothing else changes (R194,
R195). -/
def State.faultedBy (s : State) (c : Cause) : State :=
  { s with run := .faulted ⟨c, s.pc, s.memRead s.pc, s.memRead (s.pc + 1#8), s.memRead (s.pc + 2#8)⟩ }

/-- The registers that an instruction may write: the `writes` column of R23. -/
def mayWriteReg (i : Instr) (k : RegIdx) : Prop :=
  match i with
  | .add a _ | .sub a _ | .mul a _ | .div a _ | .mod a _ | .ldi a _ => a = regByte k
  | .pop a => a = regByte k ∨ k = 7
  | .push _ | .call _ | .ret => k = 7
  | .cmp _ _ | .jmp _ | .jeq _ | .jne _ | .hlt | .prn _ => False

end Sys2Proof.Machine
end

