-- ==== Sys2Proof/Certificates/Slice0/Obligations.lean ====
section
/-! DEFINITION. The statements for the provers. Each holds of every state, reachable or not, unless it says otherwise; a
register operand is written `regByte i`, which runs over every byte 0 to 7, register 7 among them. -/

open Sys2Proof Sys2Proof.Machine

/-! ## Encoding and decoding -/

/-- R80 to R87: for any injective opcode map, the bytes of an instruction, whatever bytes follow them in the ignored
slots, decode to that instruction, with every operand at every value. -/
def Obligations.DecodeOfEncodeIsTheInstruction : Prop :=
  ∀ opc : OpcodeMap, Function.Injective opc → ∀ (i : Instr) (rest : List Byte),
    decodeBytes opc (encode opc i ++ rest) = .instr i

/-- R80 to R87: what the decoder reads from three bytes encodes to the first of those bytes, as many as its width. -/
def Obligations.EncodeOfDecodeIsTheFetchedBytes : Prop :=
  ∀ (opc : OpcodeMap) (opcode a b : Byte) (i : Instr),
    decode opc opcode a b = .instr i → encode opc i = [opcode, a, b].take i.width

/-- R87: "Decode: look up the opcode value in a fixed mapping": the mnemonic whose opcode value is the whole byte, if
there is one, whatever the operand bytes, else unsupported; the width follows from the mnemonic. -/
def Obligations.DecodeLooksUpTheWholeOpcodeByte : Prop :=
  ∀ opc : OpcodeMap, Function.Injective opc → ∀ opcode a b : Byte,
    (∀ m, opc m = opcode → ∃ i, decode opc opcode a b = .instr i ∧ i.mnemonic = m ∧
      i.width = 1 + i.operandBytes.length ∧ i.width = m.width) ∧
    (∀ i, decode opc opcode a b = .instr i → opc i.mnemonic = opcode) ∧
    ((∀ m, opc m ≠ opcode) → decode opc opcode a b = .unsupported opcode)

/-- R82: the fetch reads the three bytes at `pc`, `pc + 1` and `pc + 2` modulo 256; a format Z instruction ignores the last
two and a format R instruction the last, which may hold anything. -/
def Obligations.FetchReadsThreeBytesAndIgnoresUnusedSlots : Prop :=
  (∀ (s : State) (p q : Addr), p.toNat = (s.pc.toNat + 1) % 256 → q.toNat = (s.pc.toNat + 2) % 256 →
    s.fetch.opcode = s.memRead s.pc ∧ s.fetch.a = s.memRead p ∧ s.fetch.b = s.memRead q) ∧
  ∀ (opc : OpcodeMap) (opcode a b : Byte) (i : Instr), decode opc opcode a b = .instr i →
    (i.mnemonic.format = .z → ∀ a' b', decode opc opcode a' b' = .instr i) ∧
    (i.mnemonic.format = .r → ∀ b', decode opc opcode a b' = .instr i)

/-- Words of each format, written out from R81 and R85, decode to the instructions they stand for. The opcode values are
the spec's choice (its D3, log entry 1). -/
def Obligations.SampleWordsDecode : Prop :=
  decodeTableWord 24 0x0100A0 = some (.add 0x00#8 0x01#8) ∧
  decodeTableWord 24 0x0302A1 = some (.sub 0x02#8 0x03#8) ∧
  decodeTableWord 24 0x2A0082 = some (.ldi 0x00#8 0x2A#8) ∧
  decodeTableWord 16 0x0645 = some (.push 0x06#8) ∧
  decodeTableWord 16 0x0756 = some (.jne 0x07#8) ∧
  decodeTableWord 8 0x11 = some .ret ∧
  decodeTableWord 24 0x0100A5 = none

/-! ## The step, and how a program comes to run -/

/-- R117: the step of a running machine is the body of the instruction that the three bytes at `pc` decode to; where they
decode to none it is UnsupportedInstruction; in a terminal state there is no step (log entry 7). -/
def Obligations.StepRunsTheDecodedInstruction : Prop :=
  ∀ s : State,
    (s.run = .running → ∀ i,
      decode defaultOpc (s.memRead s.pc) (s.memRead (s.pc + 1#8)) (s.memRead (s.pc + 2#8)) = .instr i →
        step s = exec i s) ∧
    (s.run = .running → ∀ o,
      decode defaultOpc (s.memRead s.pc) (s.memRead (s.pc + 1#8)) (s.memRead (s.pc + 2#8)) = .unsupported o →
        step s = .next (s.faultedBy .unsupportedInstruction)) ∧
    (s.run = .halted → step s = .fault .noStepHalted) ∧
    (∀ r, s.run = .faulted r → step s = .fault (.noStepFaulted r))

/-- R85: the rules hold for any injective opcode map: a running machine with the bytes of an instruction at `pc` runs that
instruction. -/
def Obligations.StoredEncodingRunsUnderAnyOpcodeMap : Prop :=
  ∀ opc : OpcodeMap, Function.Injective opc → ∀ (s : State) (i : Instr), s.run = .running →
    (∀ k, k < i.width → s.memRead (s.pc + BitVec.ofNat 8 k) = (encode opc i).getD k 0#8) →
      cycle opc s = exec i s

/-- The step runs the word that `withFetchWord` places, in any state, and placing it changes only the three cells at `pc`
and the run state (log entries 13 and 20; the model's own interface). -/
def Obligations.PlacedWordIsWhatTheStepRuns : Prop :=
  ∀ (s : State) (nbits w : Nat) (i : Instr), decodeTableWord nbits w = some i →
    step (s.withFetchWord nbits w) = exec i (s.withFetchWord nbits w) ∧
    (s.withFetchWord nbits w).regs = s.regs ∧ (s.withFetchWord nbits w).pc = s.pc ∧
    (s.withFetchWord nbits w).fl = s.fl ∧ (s.withFetchWord nbits w).out = s.out ∧
    ∀ a : Addr, a ≠ s.pc → a ≠ s.pc + 1#8 → a ≠ s.pc + 2#8 →
      (s.withFetchWord nbits w).memRead a = s.memRead a

/-- R25: at run start the registers are zero except the stack pointer, whatever the program image. -/
def Obligations.RunStartRegistersAreZeroButTheStackPointer : Prop :=
  ∀ image : List Byte, image.length ≤ 256 → ∃ s, runStart image = .next s ∧
    (∀ i : RegIdx, i ≠ 7 → s.reg i = 0x00#8) ∧ s.reg 7 = 0xF3#8

/-- R233: byte `k` of the image goes to address `k`, and the loader does nothing else: every
other cell, the registers and the entry point are those of reset. -/
def Obligations.LoaderPutsByteKAtAddressK : Prop :=
  ∀ image : List Byte, image.length ≤ 256 → ∃ s, runStart image = .next s ∧
    (∀ (k : Nat) (h : k < image.length), s.memRead (BitVec.ofNat 8 k) = image[k]) ∧
    (∀ k : Nat, image.length ≤ k → k < 256 →
      s.memRead (BitVec.ofNat 8 k) = State.reset.memRead (BitVec.ofNat 8 k)) ∧
    s = { State.reset with mem := s.mem } ∧ s.pc = 0x00#8

/-- The rest of the launch state, which the spec chose: `fl`, `out` and the cells beyond the image are zero or empty, the
machine is running, and an image longer than memory is refused (the spec's D4, D5, D13, D14; log entries 2, 3, 12, 13). -/
def Obligations.LaunchStateBeyondTheImage : Prop :=
  (∀ image : List Byte, image.length ≤ 256 → ∃ s, runStart image = .next s ∧
    (∀ k : Nat, image.length ≤ k → k < 256 → s.memRead (BitVec.ofNat 8 k) = 0x00#8) ∧
    s.fl = 0x00#8 ∧ s.out = [] ∧ s.run = .running) ∧
  (∀ image : List Byte, 256 < image.length → runStart image = .refused (.imageTooLong image.length))

/-- Every launch state meets the invariant, the one with nothing loaded (`State.reset`) among them. That bits 7:1 of `fl`
are zero there rests on `fl` being 0x00 at run start and on those bits being constant 0, the spec's D4 and D19 (log entries 2
and 16, both DESIGN CHOICE). -/
def Obligations.LaunchStatesMeetTheInvariant : Prop :=
  State.reset.inv ∧ runStart [] = .next State.reset ∧ ∀ (image : List Byte) (s : State), runStart image = .next s → s.inv

/-- Every step keeps the invariant: the canonical form of memory, the reserved bits of `fl` at zero (R30, the spec's D19,
log entry 16), and a fault record that fits the instruction at `pc` (R119, R194). -/
def Obligations.StepKeepsTheInvariant : Prop :=
  ∀ s t : State, s.inv → step s = .next t → t.inv

/-! ## Memory -/

/-- R52: after any sequence of writes, a read returns the value most recently written to that cell, or the value before
them if none was; a write changes that one cell and nothing else. -/
def Obligations.ReadReturnsTheMostRecentWrite : Prop :=
  (∀ (s : State) (ws : List (Addr × Byte)) (a : Addr),
    (ws.foldl (fun u w => u.memWrite w.1 w.2) s).memRead a =
      ((ws.reverse.find? fun w => decide (w.1 = a)).map Prod.snd).getD (s.memRead a)) ∧
  ∀ (s : State) (a : Addr) (v : Byte),
    (s.memWrite a v).regs = s.regs ∧ (s.memWrite a v).pc = s.pc ∧ (s.memWrite a v).fl = s.fl ∧
    (s.memWrite a v).run = s.run ∧ (s.memWrite a v).out = s.out ∧ sameMemoryOutside a s (s.memWrite a v)

/-- The canonical form is one form: two canonical memories that read alike at all 256 addresses are equal data (R50). -/
def Obligations.CanonicalMemoriesThatReadAlikeAreEqual : Prop :=
  ∀ m n : Memory, Memory.wf m → Memory.wf n → (∀ a : Addr, Memory.read m a.toNat = Memory.read n a.toNat) → m = n

/-- R51 and R28: addresses wrap modulo 256 for fetch and for stack access, and so does the advance of `pc`; `pc` is 0 after
reset. POP is stated for a destination other than the stack pointer; `PopReadsTheStackTop` covers `POP R7`. -/
def Obligations.AddressesAndPcWrapModulo256 : Prop :=
  State.reset.pc.toNat = 0 ∧
  ∀ (s : State) (i : RegIdx),
    (∀ p : Addr, p.toNat = (s.pc.toNat + 1) % 256 → s.fetch.a = s.memRead p) ∧
    (∀ p : Addr, p.toNat = (s.pc.toNat + 2) % 256 → s.fetch.b = s.memRead p) ∧
    (∃ t, exec (.push (regByte i)) s = .next t ∧ t.pc.toNat = (s.pc.toNat + 2) % 256 ∧
      ∀ d : Addr, d.toNat = ((s.reg 7).toNat + 255) % 256 → t.reg 7 = d ∧ sameMemoryOutside d s t) ∧
    (∃ t, exec (.call (regByte i)) s = .next t ∧
      ∀ d : Addr, d.toNat = ((s.reg 7).toNat + 255) % 256 → t.reg 7 = d ∧ sameMemoryOutside d s t) ∧
    (∃ t, exec (.pop (regByte i)) s = .next t ∧ t.pc.toNat = (s.pc.toNat + 2) % 256 ∧
      (i ≠ 7 → (t.reg 7).toNat = ((s.reg 7).toNat + 1) % 256)) ∧
    (∃ t, exec .ret s = .next t ∧ (t.reg 7).toNat = ((s.reg 7).toNat + 1) % 256) ∧
    (∀ imm : Byte, ∃ t, exec (.ldi (regByte i) imm) s = .next t ∧ t.pc.toNat = (s.pc.toNat + 3) % 256)

/-! ## The ALU -/

/-- R138: ADD, SUB and MUL write the result modulo 256 and nothing else: no flag is raised and it is no error. -/
def Obligations.AddSubMulWrapAndRaiseNoFlag : Prop :=
  ∀ (i j : RegIdx) (s : State),
    (∃ t, exec (.add (regByte i) (regByte j)) s = .next t ∧ onlyWritesReg i 3 s t ∧
      (t.reg i).toNat = ((s.reg i).toNat + (s.reg j).toNat) % 256) ∧
    (∃ t, exec (.sub (regByte i) (regByte j)) s = .next t ∧ onlyWritesReg i 3 s t ∧
      ((t.reg i).toNat : Int) = ((s.reg i).toNat - (s.reg j).toNat : Int) % 256) ∧
    (∃ t, exec (.mul (regByte i) (regByte j)) s = .next t ∧ onlyWritesReg i 3 s t ∧
      (t.reg i).toNat = (s.reg i).toNat * (s.reg j).toNat % 256)

/-- DIV and MOD by a divisor that is not zero: the one quotient and remainder with `n = q * d + r` and `r < d` (R134, R135,
R139: the spec's D7, log entry 6), and nothing else changes. -/
def Obligations.DivModGiveQuotientAndRemainder : Prop :=
  ∀ (i j : RegIdx) (s : State), s.reg j ≠ 0x00#8 →
    ∃ t u, exec (.div (regByte i) (regByte j)) s = .next t ∧ onlyWritesReg i 3 s t ∧
      exec (.mod (regByte i) (regByte j)) s = .next u ∧ onlyWritesReg i 3 s u ∧
      (s.reg i).toNat = (t.reg i).toNat * (s.reg j).toNat + (u.reg i).toNat ∧
      (u.reg i).toNat < (s.reg j).toNat ∧ (t.reg i).toNat ≤ (s.reg i).toNat

/-- DIV and MOD by zero stop the machine with DivideByZero, whatever the dividend, and change nothing but the run state
(R190, R195: the spec's D2 and D8, log entries 7 and 8). -/
def Obligations.DivModByZeroStopTheMachine : Prop :=
  ∀ (i j : RegIdx) (s : State), s.reg j = 0x00#8 →
    exec (.div (regByte i) (regByte j)) s = .next (s.faultedBy .divideByZero) ∧
    exec (.mod (regByte i) (regByte j)) s = .next (s.faultedBy .divideByZero)

/-- CMP sets `E` exactly when the registers are equal and leaves bits 7:1 of `fl`, every register, memory and output alone;
it is 3 bytes wide (R136; the width is the spec's D11, log entry 10). -/
def Obligations.CompareSetsOnlyTheEqualFlag : Prop :=
  ∀ (i j : RegIdx) (s : State), ∃ t, exec (.cmp (regByte i) (regByte j)) s = .next t ∧
    (t.fl.getLsbD 0 = true ↔ s.reg i = s.reg j) ∧
    (∀ k, 1 ≤ k → t.fl.getLsbD k = s.fl.getLsbD k) ∧
    sameRegs s t ∧ t.pc = s.pc + 3#8 ∧ t.run = s.run ∧ t.out = s.out ∧ sameMemory s t

/-- R140: both registers are read before the destination is written, so with one register twice both operands are its old
value. -/
def Obligations.SameRegisterTwiceUsesTheOldValue : Prop :=
  ∀ (i : RegIdx) (s : State),
    (∃ t, exec (.add (regByte i) (regByte i)) s = .next t ∧ (t.reg i).toNat = 2 * (s.reg i).toNat % 256) ∧
    (∃ t, exec (.sub (regByte i) (regByte i)) s = .next t ∧ t.reg i = 0x00#8) ∧
    (∃ t, exec (.mul (regByte i) (regByte i)) s = .next t ∧ (t.reg i).toNat = (s.reg i).toNat ^ 2 % 256) ∧
    (∃ t, exec (.cmp (regByte i) (regByte i)) s = .next t ∧ t.fl.getLsbD 0 = true) ∧
    (s.reg i ≠ 0x00#8 →
      (∃ t, exec (.div (regByte i) (regByte i)) s = .next t ∧ t.reg i = 0x01#8) ∧
      (∃ t, exec (.mod (regByte i) (regByte i)) s = .next t ∧ t.reg i = 0x00#8))

/-- R142: no ALU instruction reads or writes memory beyond its own fetch, and none emits output: its registers, flags and
`pc` come out the same whatever memory holds. -/
def Obligations.AluInstructionsUseNoMemoryAndNoOutput : Prop :=
  ∀ i : Instr, i.mnemonic ∈ [Mnemonic.add, .sub, .mul, .div, .mod, .cmp] → ∀ (s : State) (m : Memory),
    ∃ t u, exec i s = .next t ∧ exec i { s with mem := m } = .next u ∧
      t.mem = s.mem ∧ u.mem = m ∧ t.out = s.out ∧ u.out = s.out ∧
      u.regs = t.regs ∧ u.fl = t.fl ∧ u.pc = t.pc

/-- ADD, SUB and MUL are also the two's-complement operations on their registers (R137, which the spec derives). -/
def Obligations.AddSubMulServeTwosComplement : Prop :=
  ∀ (i j : RegIdx) (s : State),
    (∃ t, exec (.add (regByte i) (regByte j)) s = .next t ∧
      (t.reg i).toInt = ((s.reg i).toInt + (s.reg j).toInt).bmod 256) ∧
    (∃ t, exec (.sub (regByte i) (regByte j)) s = .next t ∧
      (t.reg i).toInt = ((s.reg i).toInt - (s.reg j).toInt).bmod 256) ∧
    (∃ t, exec (.mul (regByte i) (regByte j)) s = .next t ∧
      (t.reg i).toInt = ((s.reg i).toInt * (s.reg j).toInt).bmod 256)

/-! ## Stack, call and return -/

/-- PUSH r: the stack pointer goes down by one, the register's value is stored in the cell it then names, and nothing else
changes (R150). `PUSH R7` stores the decremented stack pointer (R152: the spec's D16, log entry 14). -/
def Obligations.PushStoresAtTheDecrementedStackPointer : Prop :=
  ∀ (i : RegIdx) (s : State), ∃ t, exec (.push (regByte i)) s = .next t ∧
    t.reg 7 = s.reg 7 - 1#8 ∧ sameRegsOutside 7 s t ∧
    t.memRead (s.reg 7 - 1#8) = (if i = 7 then s.reg 7 - 1#8 else s.reg i) ∧
    sameMemoryOutside (s.reg 7 - 1#8) s t ∧
    t.pc = s.pc + 2#8 ∧ t.fl = s.fl ∧ t.run = s.run ∧ t.out = s.out

/-- POP r: the cell at the stack pointer is read into the register, the stack pointer goes up by one, and nothing else
changes (R151). `POP R7` leaves the popped byte plus one (R152: the spec's D16, log entry 14). -/
def Obligations.PopReadsTheStackTop : Prop :=
  ∀ (i : RegIdx) (s : State), ∃ t, exec (.pop (regByte i)) s = .next t ∧
    (i ≠ 7 → t.reg i = s.memRead (s.reg 7) ∧ t.reg 7 = s.reg 7 + 1#8) ∧
    (i = 7 → t.reg 7 = s.memRead (s.reg 7) + 1#8) ∧
    (∀ k, k ≠ i → k ≠ 7 → t.reg k = s.reg k) ∧ sameMemory s t ∧
    t.pc = s.pc + 2#8 ∧ t.fl = s.fl ∧ t.run = s.run ∧ t.out = s.out

/-- A PUSH and then a POP into any register but the stack pointer moves the value and brings the stack pointer back (R151's
round trip; spec/95_test_vectors.md S4). -/
def Obligations.PushThenPopMovesTheValue : Prop :=
  ∀ (i j : RegIdx) (s : State), i ≠ 7 → j ≠ 7 →
    ∃ t u, exec (.push (regByte i)) s = .next t ∧ exec (.pop (regByte j)) t = .next u ∧
      u.reg j = s.reg i ∧ sameRegsOutside j s u ∧ u.pc = s.pc + 4#8

/-- CALL r: the address of the next instruction is stored in the cell below the stack pointer, and `pc` is the register's
value, read after the decrement, so that `CALL R7` jumps to the new stack pointer (R160: the spec's D12 and D16, log
entries 11 and 14). -/
def Obligations.CallPushesTheReturnAddressAndJumps : Prop :=
  ∀ (i : RegIdx) (s : State), ∃ t, exec (.call (regByte i)) s = .next t ∧
    t.reg 7 = s.reg 7 - 1#8 ∧ sameRegsOutside 7 s t ∧
    (t.memRead (s.reg 7 - 1#8)).toNat = (s.pc.toNat + 2) % 256 ∧
    sameMemoryOutside (s.reg 7 - 1#8) s t ∧
    t.pc = (if i = 7 then s.reg 7 - 1#8 else s.reg i) ∧ t.fl = s.fl ∧ t.run = s.run ∧ t.out = s.out

/-- R161: RET sets `pc` to the byte at the stack pointer, increments the stack pointer, and cannot fault. -/
def Obligations.ReturnPopsTheProgramCounter : Prop :=
  ∀ s : State, ∃ t, exec .ret s = .next t ∧
    t.pc = s.memRead (s.reg 7) ∧ (t.reg 7).toNat = ((s.reg 7).toNat + 1) % 256 ∧ sameRegsOutside 7 s t ∧
    sameMemory s t ∧ t.fl = s.fl ∧ t.run = s.run ∧ t.out = s.out

/-- CALL pushes the 1-byte address of the instruction after it, and a RET reached with the stack pointer and the cell it
names as the CALL left them resumes there, with the stack pointer back (R162). That this address is `(pc + 2) mod 256` for a
CALL at 0xFE or 0xFF too is the spec's D12 (log entry 11, DESIGN CHOICE). -/
def Obligations.ReturnResumesAfterTheCall : Prop :=
  ∀ (i : RegIdx) (s : State), ∃ t, exec (.call (regByte i)) s = .next t ∧
    (t.memRead (t.reg 7)).toNat = (s.pc.toNat + 2) % 256 ∧
    ∀ u : State, u.reg 7 = t.reg 7 → u.memRead (u.reg 7) = t.memRead (t.reg 7) →
      ∃ v, exec .ret u = .next v ∧ v.pc.toNat = (s.pc.toNat + 2) % 256 ∧ v.reg 7 = s.reg 7

/-! ## Branches -/

/-- JMP r goes to the address in the register and changes nothing else (R170). -/
def Obligations.JumpGoesToTheRegister : Prop :=
  ∀ (i : RegIdx) (s : State), ∃ t, exec (.jmp (regByte i)) s = .next t ∧ t.pc = s.reg i ∧ onlyMovesPc s t

/-- JEQ and JNE, in all four cases: taken, `pc` is the register's value; not taken, it is 2 on, whatever the operand byte
(R171, R172; that a branch not taken does not check its operand is the spec's D6, log entry 5). -/
def Obligations.ConditionalBranchesReadTheEqualFlag : Prop :=
  ∀ (i : RegIdx) (r : Byte) (s : State),
    (s.fl.getLsbD 0 = true →
      (∃ t, exec (.jeq (regByte i)) s = .next t ∧ t.pc = s.reg i ∧ onlyMovesPc s t) ∧
      (∃ t, exec (.jne r) s = .next t ∧ t.pc = s.pc + 2#8 ∧ onlyMovesPc s t)) ∧
    (s.fl.getLsbD 0 = false →
      (∃ t, exec (.jne (regByte i)) s = .next t ∧ t.pc = s.reg i ∧ onlyMovesPc s t) ∧
      (∃ t, exec (.jeq r) s = .next t ∧ t.pc = s.pc + 2#8 ∧ onlyMovesPc s t))

/-- R173: the four combinations of CMP with JEQ and JNE. -/
def Obligations.CompareThenBranchInAllFourCases : Prop :=
  ∀ (i j k : RegIdx) (s : State), ∃ t u v, exec (.cmp (regByte i) (regByte j)) s = .next t ∧
    exec (.jeq (regByte k)) t = .next u ∧ exec (.jne (regByte k)) t = .next v ∧
    (s.reg i = s.reg j → t.fl.getLsbD 0 = true ∧ u.pc = s.reg k ∧ v.pc = t.pc + 2#8) ∧
    (s.reg i ≠ s.reg j → t.fl.getLsbD 0 = false ∧ u.pc = t.pc + 2#8 ∧ v.pc = s.reg k)

/-! ## Halt, load and print -/

/-- HLT sets the run state to `Halted` and changes nothing else but `pc`, which ends one past it (R180; `pc` is the spec's
D20, log entry 17). -/
def Obligations.HaltStopsOnePastItself : Prop :=
  ∀ s : State, ∃ t, exec .hlt s = .next t ∧ t.completed ∧ t.pc.toNat = (s.pc.toNat + 1) % 256 ∧
    sameRegs s t ∧ t.fl = s.fl ∧ t.out = s.out ∧ sameMemory s t

/-- LDI r, imm writes the second operand byte, whatever it is, to the register and changes nothing else (R181). -/
def Obligations.LoadImmediateWritesTheByte : Prop :=
  ∀ (i : RegIdx) (imm : Byte) (s : State), ∃ t, exec (.ldi (regByte i) imm) s = .next t ∧
    t.reg i = imm ∧ onlyWritesReg i 3 s t

/-- PRN r appends the register's value to the output and changes nothing else (R182; the output as a list of values is the
spec's D13, log entry 12). -/
def Obligations.PrintAppendsTheRegister : Prop :=
  ∀ (i : RegIdx) (s : State), ∃ t, exec (.prn (regByte i)) s = .next t ∧
    t.out = s.out ++ [s.reg i] ∧ sameRegs s t ∧ t.pc = s.pc + 2#8 ∧ t.fl = s.fl ∧ t.run = s.run ∧ sameMemory s t

/-- LDI and then PRN of the same register outputs exactly the loaded value (spec/95_test_vectors.md S1). -/
def Obligations.LoadThenPrintOutputsTheLoadedValue : Prop :=
  ∀ (i : RegIdx) (imm : Byte) (s : State), ∃ t u, exec (.ldi (regByte i) imm) s = .next t ∧
    exec (.prn (regByte i)) t = .next u ∧ u.out = s.out ++ [imm] ∧ u.pc = s.pc + 5#8

/-! ## Fatal errors and the end of a run -/

/-- An instruction with a register operand byte above 7 stops the machine with BadRegisterIndex and no other effect, where
it uses the byte: JEQ and JNE only when taken; DIV and MOD before they look at the divisor (R193, R199: the spec's D6, D8
and D10, log entries 5, 8 and 9). -/
def Obligations.BadRegisterByteStopsTheMachine : Prop :=
  ∀ (i : Instr) (s : State), i.wellFormed = false →
    (i.mnemonic = .jeq → s.fl.getLsbD 0 = true) → (i.mnemonic = .jne → s.fl.getLsbD 0 = false) →
      exec i s = .next (s.faultedBy .badRegisterIndex)

/-- Under any opcode map, a running machine that fetches an opcode byte outside the map stops with UnsupportedInstruction
and no other effect (R112, R191: the spec's D2 and D8, log entries 7 and 8). -/
def Obligations.UnsupportedOpcodeStopsTheMachine : Prop :=
  ∀ (opc : OpcodeMap) (s : State), s.run = .running → (∀ m, opc m ≠ s.memRead s.pc) →
    cycle opc s = .next (s.faultedBy .unsupportedInstruction)

/-- A step that ends in a fatal error changes nothing but the run state, and its record holds the `pc` and the three bytes
fetched (R194, R195: the spec's D8, log entry 8). -/
def Obligations.FaultChangesOnlyTheRunState : Prop :=
  ∀ (s t : State) (r : FaultRecord), step s = .next t → t.run = .faulted r →
    t = { s with run := .faulted r } ∧ r.pc = s.pc ∧ r.opcode = s.memRead s.pc ∧
      r.a = s.memRead (s.pc + 1#8) ∧ r.b = s.memRead (s.pc + 2#8)

/-- Why a step can end in a fatal error: the opcode is in no map entry; or a register byte of the decoded instruction is
above 7; or it is a DIV or MOD with good indices and a zero divisor, and then the record's operand bytes are the two
indices. UnsupportedALUOperation is not among them (R190 to R193, R199: the spec's D6 and D10, log entries 5 and 9). -/
def Obligations.FaultCausesAreExact : Prop :=
  ∀ (s t : State) (r : FaultRecord), step s = .next t → t.run = .faulted r →
    (r.cause = .unsupportedInstruction ∧ ∀ m, defaultOpc m ≠ s.memRead s.pc) ∨
    (r.cause = .badRegisterIndex ∧ ∃ i, s.decoded = .instr i ∧ i.wellFormed = false) ∨
    (r.cause = .divideByZero ∧ ∃ j k : RegIdx, s.reg k = 0x00#8 ∧ r.a = regByte j ∧ r.b = regByte k ∧
      (s.decoded = .instr (.div (regByte j) (regByte k)) ∨ s.decoded = .instr (.mod (regByte j) (regByte k))))

/-- R190: DivideByZero is raised by DIV and MOD, and only by them, when the second register is 0 (both indices being good);
the record holds the two register indices with the `pc` and the opcode, and the destination is not written. (That the
stopped machine's run state is called `faulted` is the spec's D2, log entry 7.) -/
def Obligations.DivideByZeroIsRaisedByDivAndModOnly : Prop :=
  ∀ s : State, s.run = .running →
    ((∃ t r, step s = .next t ∧ t.run = .faulted r ∧ r.cause = .divideByZero) ↔
      ∃ j k : RegIdx, s.reg k = 0x00#8 ∧
        (s.decoded = .instr (.div (regByte j) (regByte k)) ∨ s.decoded = .instr (.mod (regByte j) (regByte k)))) ∧
    ∀ (t : State) (r : FaultRecord) (j k : RegIdx), step s = .next t → t.run = .faulted r → r.cause = .divideByZero →
      (s.decoded = .instr (.div (regByte j) (regByte k)) ∨ s.decoded = .instr (.mod (regByte j) (regByte k))) →
        r.a = regByte j ∧ r.b = regByte k ∧ r.pc = s.pc ∧ r.opcode = s.memRead s.pc ∧ sameRegs s t

/-- R191: UnsupportedInstruction is raised exactly when the opcode byte fetched is none of the map's, and is reported with
the opcode value and the address. (The run state's name is the spec's D2, log entry 7.) -/
def Obligations.UnsupportedInstructionIsReportedWithItsAddress : Prop :=
  ∀ (opc : OpcodeMap) (s : State), s.run = .running →
    ((∃ t r, cycle opc s = .next t ∧ t.run = .faulted r ∧ r.cause = .unsupportedInstruction) ↔
      ∀ m, opc m ≠ s.memRead s.pc) ∧
    ∀ (t : State) (r : FaultRecord), cycle opc s = .next t → t.run = .faulted r → r.cause = .unsupportedInstruction →
      r.opcode = s.memRead s.pc ∧ r.pc = s.pc

/-- R118: a run leaves `Running` in two ways only, by HLT into `Halted` or by a fatal error; and any instruction but HLT,
with register bytes 0 to 7 and no zero divisor, leaves the machine running (the source's progress property). -/
def Obligations.OnlyHaltOrAFaultEndsARun : Prop :=
  (∀ s t : State, step s = .next t → t.run ≠ .running → (s.decoded = .instr .hlt ∧ t.completed) ∨ t.failed) ∧
  ∀ (s : State) (i : Instr), s.run = .running → s.decoded = .instr i → i ≠ .hlt → i.wellFormed = true →
    (∀ (a : Byte) (k : RegIdx), i = .div a (regByte k) ∨ i = .mod a (regByte k) → s.reg k ≠ 0x00#8) →
      ∃ t, step s = .next t ∧ t.run = .running

/-- HLT is the only way to `Halted` (R33, R118, R180). -/
def Obligations.OnlyHaltCompletesARun : Prop :=
  ∀ s t : State, step s = .next t → (t.completed ↔ s.decoded = .instr .hlt)

/-- R197: with register bytes 0 to 7, and no division by zero, no instruction faults: not for any address, stack pointer or
`pc` wrap, overflow, empty stack, store into the program, or register 7 used as data. -/
def Obligations.WellFormedInstructionsNeverFault : Prop :=
  ∀ (i : Instr) (s : State), i.wellFormed = true → ¬ s.failed →
    (∀ (a : Byte) (k : RegIdx), i = .div a (regByte k) ∨ i = .mod a (regByte k) → s.reg k ≠ 0x00#8) →
      ∃ t, exec i s = .next t ∧ ¬ t.failed

/-- R247: a running machine always takes its next step, and only a running one does; so a run is finite exactly when it
reaches HLT or a fatal error. -/
def Obligations.RunningMachineAlwaysSteps : Prop :=
  (∀ s : State, (∃ t, step s = .next t) ↔ s.run = .running) ∧
  ∀ s : State, s.run = .running →
    ((∃ n, ∀ t : State, Host.Core.run Sys2Proof.core n s ≠ .next t) ↔
      ∃ (n : Nat) (t : State), Host.Core.run Sys2Proof.core n s = .next t ∧ (t.completed ∨ t.failed))

/-- No step leads out of a terminal state, and the fault record is never overwritten (R33, R201; how the model answers
there is its own choice, log entry 7). -/
def Obligations.StoppedMachineStaysStopped : Prop :=
  ∀ (s : State) (n : Nat),
    (s.run = .halted → Host.Core.run Sys2Proof.core (n + 1) s = .fault .noStepHalted) ∧
    (∀ r, s.run = .faulted r → Host.Core.run Sys2Proof.core (n + 1) s = .fault (.noStepFaulted r))

/-! ## Rules about all instructions -/

/-- Only CMP writes `E`, nothing writes bits 7:1 of `fl`, and only JEQ and JNE read `fl`: every other instruction does the
same to the rest of the state whatever `fl` holds (R29; bits 7:1 are the spec's D19, log entry 16). -/
def Obligations.OnlyCompareWritesAndOnlyBranchesReadFlags : Prop :=
  (∀ s t : State, step s = .next t →
    reservedBits t.fl = reservedBits s.fl ∧ (t.fl ≠ s.fl → ∃ a b, s.decoded = .instr (.cmp a b))) ∧
  ∀ (i : Instr) (s : State) (f : Byte), i.mnemonic ≠ .jeq → i.mnemonic ≠ .jne →
    ∃ t u, exec i s = .next t ∧ exec i { s with fl := f } = .next u ∧
      u.mem = t.mem ∧ u.regs = t.regs ∧ u.pc = t.pc ∧ u.run = t.run ∧ u.out = t.out

/-- Only PUSH and CALL write memory, and only the cell below the stack pointer (R53). -/
def Obligations.OnlyPushAndCallWriteMemory : Prop :=
  ∀ (s t : State) (a : Addr), step s = .next t → t.memRead a ≠ s.memRead a →
    a = s.reg 7 - 1#8 ∧ ∃ r, s.decoded = .instr (.push r) ∨ s.decoded = .instr (.call r)

/-- A step writes no register but those R23 lists for its instruction. -/
def Obligations.OnlyListedRegistersChange : Prop :=
  ∀ (s t : State) (k : RegIdx), step s = .next t → t.reg k ≠ s.reg k →
    ∃ i, s.decoded = .instr i ∧ mayWriteReg i k

/-- Only PRN adds to the output, one value at the end (R35). -/
def Obligations.OutputGrowsOnlyByPrint : Prop :=
  ∀ s t : State, step s = .next t →
    t.out = s.out ∨ ∃ i : RegIdx, s.decoded = .instr (.prn (regByte i)) ∧ t.out = s.out ++ [s.reg i]

/-- Nothing reads the output: a step does the same whatever was emitted before (R35). -/
def Obligations.NothingReadsTheOutput : Prop :=
  ∀ (opc : OpcodeMap) (s t : State) (before : List Byte), cycle opc s = .next t →
    cycle opc { s with out := before ++ s.out } = .next { t with out := before ++ t.out }

/-- Where an instruction neither redirects `pc` nor faults, the next `pc` is its own plus the instruction's width (R27,
R114; for HLT the spec's D20, log entry 17; for CMP its D11, log entry 10). -/
def Obligations.SequentialInstructionsAdvanceByTheirWidth : Prop :=
  ∀ (s t : State) (i : Instr), step s = .next t → s.decoded = .instr i → ¬ t.failed →
    i.mnemonic ∉ [Mnemonic.call, .ret, .jmp] →
    (i.mnemonic = .jeq → s.fl.getLsbD 0 = false) → (i.mnemonic = .jne → s.fl.getLsbD 0 = true) →
      t.pc.toNat = (s.pc.toNat + i.width) % 256

/-- A store is seen by the next fetch: a PUSH whose cell is where the next instruction stands has the pushed byte fetched
as the next opcode (R66, which the spec derives). -/
def Obligations.PushedByteIsFetchedAsTheNextOpcode : Prop :=
  ∀ (i : RegIdx) (s : State), s.run = .running → s.decoded = .instr (.push (regByte i)) → i ≠ 7 →
    s.reg 7 - 1#8 = s.pc + 2#8 →
      ∃ t, step s = .next t ∧ t.run = .running ∧ t.fetch.opcode = s.reg i

/-- The source's own bookkeeping, every handler followed by an unconditional increment of `pc`, has exactly the net effects
of the instruction rules, on every instruction and state (R13, R115, R246; C1). Both sides share the ALU, stack and flag
operations: what is at stake is the bookkeeping of `pc`. Which handler adds what is read from the spec's quotations (log
entry 25, DEDUCED). -/
def Obligations.NetEffectIsTheUniformIncrementLoop : Prop :=
  ∀ (i : Instr) (s : State), exec i s = .next (sourceBody i s)
end

