-- ==== Sys2Proof/Laws/State.lean ====
section
/-! SUPPORT. What each named update of the state leaves in each field, and what the accessors read after it. -/

namespace Sys2Proof.Machine

@[simp] theorem State.memWrite_mem (s : State) (a : Addr) (v : Byte) : (s.memWrite a v).mem = Memory.write s.mem a.toNat v := rfl
@[simp] theorem State.memWrite_regs (s : State) (a : Addr) (v : Byte) : (s.memWrite a v).regs = s.regs := rfl
@[simp] theorem State.memWrite_pc (s : State) (a : Addr) (v : Byte) : (s.memWrite a v).pc = s.pc := rfl
@[simp] theorem State.memWrite_fl (s : State) (a : Addr) (v : Byte) : (s.memWrite a v).fl = s.fl := rfl
@[simp] theorem State.memWrite_run (s : State) (a : Addr) (v : Byte) : (s.memWrite a v).run = s.run := rfl
@[simp] theorem State.memWrite_out (s : State) (a : Addr) (v : Byte) : (s.memWrite a v).out = s.out := rfl

@[simp] theorem State.setReg_mem (s : State) (i : RegIdx) (v : Byte) : (s.setReg i v).mem = s.mem := rfl
@[simp] theorem State.setReg_regs (s : State) (i : RegIdx) (v : Byte) : (s.setReg i v).regs = s.regs.set i v := rfl
@[simp] theorem State.setReg_pc (s : State) (i : RegIdx) (v : Byte) : (s.setReg i v).pc = s.pc := rfl
@[simp] theorem State.setReg_fl (s : State) (i : RegIdx) (v : Byte) : (s.setReg i v).fl = s.fl := rfl
@[simp] theorem State.setReg_run (s : State) (i : RegIdx) (v : Byte) : (s.setReg i v).run = s.run := rfl
@[simp] theorem State.setReg_out (s : State) (i : RegIdx) (v : Byte) : (s.setReg i v).out = s.out := rfl

@[simp] theorem State.setPc_mem (s : State) (a : Addr) : (s.setPc a).mem = s.mem := rfl
@[simp] theorem State.setPc_regs (s : State) (a : Addr) : (s.setPc a).regs = s.regs := rfl
@[simp] theorem State.setPc_pc (s : State) (a : Addr) : (s.setPc a).pc = a := rfl
@[simp] theorem State.setPc_fl (s : State) (a : Addr) : (s.setPc a).fl = s.fl := rfl
@[simp] theorem State.setPc_run (s : State) (a : Addr) : (s.setPc a).run = s.run := rfl
@[simp] theorem State.setPc_out (s : State) (a : Addr) : (s.setPc a).out = s.out := rfl

@[simp] theorem State.advance_mem (s : State) (w : Nat) : (s.advance w).mem = s.mem := rfl
@[simp] theorem State.advance_regs (s : State) (w : Nat) : (s.advance w).regs = s.regs := rfl
@[simp] theorem State.advance_pc (s : State) (w : Nat) : (s.advance w).pc = s.pc + BitVec.ofNat 8 w := rfl
@[simp] theorem State.advance_fl (s : State) (w : Nat) : (s.advance w).fl = s.fl := rfl
@[simp] theorem State.advance_run (s : State) (w : Nat) : (s.advance w).run = s.run := rfl
@[simp] theorem State.advance_out (s : State) (w : Nat) : (s.advance w).out = s.out := rfl

@[simp] theorem State.setFlagE_mem (s : State) (e : Bool) : (s.setFlagE e).mem = s.mem := rfl
@[simp] theorem State.setFlagE_regs (s : State) (e : Bool) : (s.setFlagE e).regs = s.regs := rfl
@[simp] theorem State.setFlagE_pc (s : State) (e : Bool) : (s.setFlagE e).pc = s.pc := rfl
@[simp] theorem State.setFlagE_fl (s : State) (e : Bool) : (s.setFlagE e).fl = reservedBits s.fl ||| (BitVec.ofBool e).setWidth 8 := rfl
@[simp] theorem State.setFlagE_run (s : State) (e : Bool) : (s.setFlagE e).run = s.run := rfl
@[simp] theorem State.setFlagE_out (s : State) (e : Bool) : (s.setFlagE e).out = s.out := rfl

@[simp] theorem State.setRun_mem (s : State) (r : RunState) : (s.setRun r).mem = s.mem := rfl
@[simp] theorem State.setRun_regs (s : State) (r : RunState) : (s.setRun r).regs = s.regs := rfl
@[simp] theorem State.setRun_pc (s : State) (r : RunState) : (s.setRun r).pc = s.pc := rfl
@[simp] theorem State.setRun_fl (s : State) (r : RunState) : (s.setRun r).fl = s.fl := rfl
@[simp] theorem State.setRun_run (s : State) (r : RunState) : (s.setRun r).run = r := rfl
@[simp] theorem State.setRun_out (s : State) (r : RunState) : (s.setRun r).out = s.out := rfl

@[simp] theorem State.emit_mem (s : State) (v : Byte) : (s.emit v).mem = s.mem := rfl
@[simp] theorem State.emit_regs (s : State) (v : Byte) : (s.emit v).regs = s.regs := rfl
@[simp] theorem State.emit_pc (s : State) (v : Byte) : (s.emit v).pc = s.pc := rfl
@[simp] theorem State.emit_fl (s : State) (v : Byte) : (s.emit v).fl = s.fl := rfl
@[simp] theorem State.emit_run (s : State) (v : Byte) : (s.emit v).run = s.run := rfl
@[simp] theorem State.emit_out (s : State) (v : Byte) : (s.emit v).out = s.out ++ [v] := rfl

@[simp] theorem State.raise_mem (s : State) (c : Cause) : (s.raise c).mem = s.mem := rfl
@[simp] theorem State.raise_regs (s : State) (c : Cause) : (s.raise c).regs = s.regs := rfl
@[simp] theorem State.raise_pc (s : State) (c : Cause) : (s.raise c).pc = s.pc := rfl
@[simp] theorem State.raise_fl (s : State) (c : Cause) : (s.raise c).fl = s.fl := rfl
@[simp] theorem State.raise_run (s : State) (c : Cause) : (s.raise c).run = .faulted ⟨c, s.pc, s.memRead s.pc, s.memRead (s.pc + 1#8), s.memRead (s.pc + 2#8)⟩ := rfl
@[simp] theorem State.raise_out (s : State) (c : Cause) : (s.raise c).out = s.out := rfl

@[simp] theorem State.reg_memWrite (s : State) (a : Addr) (v : Byte) (j : RegIdx) : (s.memWrite a v).reg j = s.reg j := rfl
@[simp] theorem State.flagE_memWrite (s : State) (a : Addr) (v : Byte) : (s.memWrite a v).flagE = s.flagE := rfl
@[simp] theorem State.memRead_setReg (s : State) (i : RegIdx) (v : Byte) (d : Addr) : (s.setReg i v).memRead d = s.memRead d := rfl
@[simp] theorem State.flagE_setReg (s : State) (i : RegIdx) (v : Byte) : (s.setReg i v).flagE = s.flagE := rfl
@[simp] theorem State.reg_setPc (s : State) (a : Addr) (j : RegIdx) : (s.setPc a).reg j = s.reg j := rfl
@[simp] theorem State.memRead_setPc (s : State) (a : Addr) (d : Addr) : (s.setPc a).memRead d = s.memRead d := rfl
@[simp] theorem State.flagE_setPc (s : State) (a : Addr) : (s.setPc a).flagE = s.flagE := rfl
@[simp] theorem State.reg_advance (s : State) (w : Nat) (j : RegIdx) : (s.advance w).reg j = s.reg j := rfl
@[simp] theorem State.memRead_advance (s : State) (w : Nat) (d : Addr) : (s.advance w).memRead d = s.memRead d := rfl
@[simp] theorem State.flagE_advance (s : State) (w : Nat) : (s.advance w).flagE = s.flagE := rfl
@[simp] theorem State.reg_setFlagE (s : State) (e : Bool) (j : RegIdx) : (s.setFlagE e).reg j = s.reg j := rfl
@[simp] theorem State.memRead_setFlagE (s : State) (e : Bool) (d : Addr) : (s.setFlagE e).memRead d = s.memRead d := rfl
@[simp] theorem State.reg_setRun (s : State) (r : RunState) (j : RegIdx) : (s.setRun r).reg j = s.reg j := rfl
@[simp] theorem State.memRead_setRun (s : State) (r : RunState) (d : Addr) : (s.setRun r).memRead d = s.memRead d := rfl
@[simp] theorem State.flagE_setRun (s : State) (r : RunState) : (s.setRun r).flagE = s.flagE := rfl
@[simp] theorem State.reg_emit (s : State) (v : Byte) (j : RegIdx) : (s.emit v).reg j = s.reg j := rfl
@[simp] theorem State.memRead_emit (s : State) (v : Byte) (d : Addr) : (s.emit v).memRead d = s.memRead d := rfl
@[simp] theorem State.flagE_emit (s : State) (v : Byte) : (s.emit v).flagE = s.flagE := rfl
@[simp] theorem State.reg_raise (s : State) (c : Cause) (j : RegIdx) : (s.raise c).reg j = s.reg j := rfl
@[simp] theorem State.memRead_raise (s : State) (c : Cause) (d : Addr) : (s.raise c).memRead d = s.memRead d := rfl
@[simp] theorem State.flagE_raise (s : State) (c : Cause) : (s.raise c).flagE = s.flagE := rfl

theorem State.reg_setReg (s : State) (i j : RegIdx) (v : Byte) :
    (s.setReg i v).reg j = if i = j then v else s.reg j := by
  simp [State.reg, State.setReg, Vector.getElem_set, Fin.ext_iff]

@[simp] theorem State.reg_setReg_self (s : State) (i : RegIdx) (v : Byte) : (s.setReg i v).reg i = v := by
  simp [State.reg_setReg]

theorem State.reg_setReg_of_ne (s : State) {i j : RegIdx} (v : Byte) (h : i ≠ j) :
    (s.setReg i v).reg j = s.reg j := by
  simp [State.reg_setReg, h]

@[simp] theorem State.fetch_opcode (s : State) : s.fetch.opcode = s.memRead s.pc := rfl
@[simp] theorem State.fetch_a (s : State) : s.fetch.a = s.memRead (s.pc + 1#8) := rfl
@[simp] theorem State.fetch_b (s : State) : s.fetch.b = s.memRead (s.pc + 2#8) := rfl

/-- A fatal error is the state before it with another run state (R195). -/
theorem State.raise_eq (s : State) (c : Cause) :
    s.raise c = { s with run := .faulted ⟨c, s.pc, s.memRead s.pc, s.memRead (s.pc + 1#8), s.memRead (s.pc + 2#8)⟩ } :=
  rfl

/-- Two states that agree in every field are equal. -/
theorem State.eq_of_fields {s t : State} (hm : s.mem = t.mem) (hr : s.regs = t.regs) (hp : s.pc = t.pc)
    (hf : s.fl = t.fl) (hn : s.run = t.run) (ho : s.out = t.out) : s = t := by
  cases s; cases t; simp_all

end Sys2Proof.Machine
end

