-- ==== Sys2Proof/Laws/Memory.lean ====
section
/-! SUPPORT. The memory operations: a read after a write, and that every operation keeps the canonical form. -/

namespace Sys2Proof.Machine

theorem Memory.read_insert (m : Memory) (a b : Nat) (v : Byte) (h : ∀ c ∈ m, c.1 ≠ a) :
    Memory.read (Memory.insert m a v) b = if a = b then v else Memory.read m b := by
  induction m with
  | nil => rfl
  | cons c m ih =>
    obtain ⟨k, w⟩ := c
    have hk : k ≠ a := h (k, w) (by simp)
    have hm := ih fun c hc => h c (by simp [hc])
    simp only [Memory.insert]
    split
    · simp only [Memory.read, hm]
      split_ifs with h1 h2 <;> simp_all
    · simp [Memory.read]

theorem Memory.read_filter (m : Memory) (a b : Nat) :
    Memory.read (m.filter fun c => decide (c.1 ≠ a)) b = if a = b then Config.memFill else Memory.read m b := by
  induction m with
  | nil => simp [Memory.read]
  | cons c m ih =>
    obtain ⟨k, w⟩ := c
    by_cases hk : k = a
    · subst hk
      simp only [ne_eq, not_true_eq_false, decide_false, Bool.false_eq_true, not_false_eq_true, List.filter_cons_of_neg,
        ih, Memory.read]
      split_ifs <;> rfl
    · simp only [ne_eq, hk, not_false_eq_true, decide_true, List.filter_cons_of_pos, Memory.read, ih]
      split_ifs <;> simp_all

/-- A read after a write gives the value written in that cell and the old value in every other, whatever list the memory
is. -/
theorem Memory.read_write (m : Memory) (a b : Nat) (v : Byte) :
    Memory.read (Memory.write m a v) b = if a = b then v else Memory.read m b := by
  unfold Memory.write
  dsimp only
  split_ifs with hv hab hab
  · rw [Memory.read_filter, if_pos hab, hv]
  · rw [Memory.read_filter, if_neg hab]
  · rw [Memory.read_insert _ _ _ _ (by simp), if_pos hab]
  · rw [Memory.read_insert _ _ _ _ (by simp), if_neg hab, Memory.read_filter, if_neg hab]

theorem Memory.mem_insert {m : Memory} {a : Nat} {v : Byte} {c : Host.Cell} :
    c ∈ Memory.insert m a v ↔ c = (a, v) ∨ c ∈ m := by
  induction m with
  | nil => simp [Memory.insert]
  | cons d m ih =>
    obtain ⟨k, w⟩ := d
    simp only [Memory.insert]
    split
    · simp only [List.mem_cons, ih]
      tauto
    · simp only [List.mem_cons]

theorem Memory.pairwise_insert {m : Memory} {a : Nat} {v : Byte} (h : m.Pairwise fun c d => c.1 < d.1)
    (ha : ∀ c ∈ m, c.1 ≠ a) : (Memory.insert m a v).Pairwise fun c d => c.1 < d.1 := by
  induction m with
  | nil => simp [Memory.insert]
  | cons d m ih =>
    obtain ⟨k, w⟩ := d
    have hk : k ≠ a := ha (k, w) (by simp)
    obtain ⟨h1, h2⟩ := List.pairwise_cons.mp h
    simp only [Memory.insert]
    split
    · refine List.pairwise_cons.mpr ⟨?_, ih h2 fun c hc => ha c (by simp [hc])⟩
      intro c hc
      obtain rfl | hc := Memory.mem_insert.mp hc
      · assumption
      · exact h1 c hc
    · have hak : a < k := by omega
      refine List.pairwise_cons.mpr ⟨?_, h⟩
      intro c hc
      obtain rfl | hc := List.mem_cons.mp hc
      · exact hak
      · exact hak.trans (h1 c hc)

theorem Memory.wf_nil : Memory.wf [] := by decide

/-- Every write inside the address space keeps the canonical form. -/
theorem Memory.write_wf {m : Memory} {a : Nat} {v : Byte} (h : Memory.wf m) (ha : a < Config.memSize) :
    Memory.wf (Memory.write m a v) := by
  have hp := h.1.filter fun c => decide (c.1 ≠ a)
  have hc : ∀ c ∈ m.filter fun c => decide (c.1 ≠ a), c.1 < Config.memSize ∧ c.2 ≠ Config.memFill :=
    fun c hc => h.2 c (List.mem_of_mem_filter hc)
  unfold Memory.write
  dsimp only
  split
  · exact ⟨hp, hc⟩
  · refine ⟨Memory.pairwise_insert hp (by simp), ?_⟩
    intro c hm
    obtain rfl | hm := Memory.mem_insert.mp hm
    · exact ⟨ha, by assumption⟩
    · exact hc c hm

/-- A store to any address keeps the canonical form. -/
theorem State.memWrite_wf {s : State} (a : Addr) (v : Byte) (h : Memory.wf s.mem) : Memory.wf (s.memWrite a v).mem :=
  Memory.write_wf h a.isLt

theorem State.memRead_memWrite (s : State) (a b : Addr) (v : Byte) :
    (s.memWrite a v).memRead b = if a = b then v else s.memRead b := by
  simp [State.memRead, State.memWrite, Memory.read_write, BitVec.toNat_inj]

theorem State.memRead_memWrite_self (s : State) (a : Addr) (v : Byte) : (s.memWrite a v).memRead a = v := by
  rw [State.memRead_memWrite, if_pos rfl]

theorem State.memRead_memWrite_of_ne (s : State) {a b : Addr} (v : Byte) (h : a ≠ b) :
    (s.memWrite a v).memRead b = s.memRead b := by
  rw [State.memRead_memWrite, if_neg h]

/-- Storing bytes touches memory only. -/
theorem State.placeBytes_frame (bytes : List Byte) (s : State) (a : Addr) :
    (s.placeBytes a bytes).regs = s.regs ∧ (s.placeBytes a bytes).pc = s.pc ∧ (s.placeBytes a bytes).fl = s.fl ∧
      (s.placeBytes a bytes).run = s.run ∧ (s.placeBytes a bytes).out = s.out := by
  induction bytes generalizing s a with
  | nil => simp [State.placeBytes]
  | cons v vs ih => simpa [State.placeBytes] using ih (s.memWrite a v) (a + 1#8)

/-- Storing bytes keeps the canonical form. -/
theorem State.placeBytes_wf (bytes : List Byte) (s : State) (a : Addr) (h : Memory.wf s.mem) :
    Memory.wf (s.placeBytes a bytes).mem := by
  induction bytes generalizing s a with
  | nil => exact h
  | cons v vs ih => exact ih _ _ (State.memWrite_wf a v h)

end Sys2Proof.Machine
end

