-- ==== Sys2Proof/Laws/Operands.lean ====
section
/-! SUPPORT. The register operand form, the flags register and the ALU's results. -/

namespace Sys2Proof.Machine

/-- The byte that names a register is read back as that register. -/
@[simp] theorem regIdx_regByte (i : RegIdx) : regIdx (regByte i) = some i := by
  revert i; decide

/-- A byte names a register exactly when it is that register's number. -/
theorem regIdx_eq_some_iff {k : Byte} {i : RegIdx} : regIdx k = some i ↔ k = regByte i := by
  constructor
  · intro h
    simp only [regIdx] at h
    split at h
    · cases h
      apply BitVec.eq_of_toNat_eq
      simp [regByte]
    · cases h
  · rintro rfl
    exact regIdx_regByte i

/-- A byte above 7 names no register (R83). -/
theorem regIdx_eq_none_iff {k : Byte} : regIdx k = none ↔ 8 ≤ k.toNat := by
  simp [regIdx]

theorem regIdx_eq_none_iff_not_lt {k : Byte} : regIdx k = none ↔ ¬ k.toNat < 8 := by
  simp [regIdx]

/-- All that `withReg` can do: run the body on the register the byte names, or raise. -/
theorem withReg_cases (a : Byte) (s : State) (body : RegIdx → State) :
    (∃ i, regIdx a = some i ∧ withReg a s body = body i) ∨
      (regIdx a = none ∧ withReg a s body = s.raise .badRegisterIndex) := by
  unfold withReg
  cases h : regIdx a with
  | some i => exact .inl ⟨i, rfl, rfl⟩
  | none => exact .inr ⟨rfl, rfl⟩

theorem withReg_of_some {a : Byte} {i : RegIdx} (h : regIdx a = some i) (s : State) (body : RegIdx → State) :
    withReg a s body = body i := by
  simp [withReg, h]

theorem withReg_of_none {a : Byte} (h : regIdx a = none) (s : State) (body : RegIdx → State) :
    withReg a s body = s.raise .badRegisterIndex := by
  simp [withReg, h]

@[simp] theorem withReg_regByte (i : RegIdx) (s : State) (body : RegIdx → State) :
    withReg (regByte i) s body = body i :=
  withReg_of_some (regIdx_regByte i) s body

/-- All that `withRegs` can do. -/
theorem withRegs_cases (a b : Byte) (s : State) (body : RegIdx → RegIdx → State) :
    (∃ i j, regIdx a = some i ∧ regIdx b = some j ∧ withRegs a b s body = body i j) ∨
      ((regIdx a = none ∨ regIdx b = none) ∧ withRegs a b s body = s.raise .badRegisterIndex) := by
  unfold withRegs
  obtain ⟨i, hi, h⟩ | ⟨hn, h⟩ := withReg_cases a s fun i => withReg b s fun j => body i j
  · obtain ⟨j, hj, h'⟩ | ⟨hn, h'⟩ := withReg_cases b s fun j => body i j
    · exact .inl ⟨i, j, hi, hj, h.trans h'⟩
    · exact .inr ⟨.inr hn, h.trans h'⟩
  · exact .inr ⟨.inl hn, h⟩

@[simp] theorem withRegs_regByte (i j : RegIdx) (s : State) (body : RegIdx → RegIdx → State) :
    withRegs (regByte i) (regByte j) s body = body i j := by
  simp [withRegs]

/-- Writing `E` is read back (R29). -/
@[simp] theorem State.flagE_setFlagE (s : State) (e : Bool) : (s.setFlagE e).flagE = e := by
  cases e <;> simp [State.flagE, State.setFlagE, reservedBits]

/-- Writing `E` leaves bits 7:1 alone (R136). -/
theorem State.setFlagE_reserved (s : State) (e : Bool) : reservedBits (s.setFlagE e).fl = reservedBits s.fl := by
  have h : ∀ f : Byte, ∀ e : Bool,
      ((f &&& 0xFE#8) ||| (BitVec.ofBool e).setWidth 8) &&& 0xFE#8 = f &&& 0xFE#8 := by decide +revert
  exact h s.fl e

theorem aluAdd_toNat (x y : Byte) : (aluAdd x y).toNat = (x.toNat + y.toNat) % 256 := by
  simp [aluAdd]

theorem aluSub_toNat (x y : Byte) : (aluSub x y).toNat = (x.toNat + 256 - y.toNat) % 256 := by
  have hx := x.isLt
  have hy := y.isLt
  simp only [aluSub, BitVec.toNat_ofInt]
  omega

theorem aluMul_toNat (x y : Byte) : (aluMul x y).toNat = x.toNat * y.toNat % 256 := by
  simp [aluMul]

theorem aluDiv_toNat (x y : Byte) : (aluDiv x y).toNat = x.toNat / y.toNat := by
  simp only [aluDiv, BitVec.toNat_ofNat]
  exact Nat.mod_eq_of_lt ((Nat.div_le_self _ _).trans_lt x.isLt)

theorem aluMod_toNat (x y : Byte) : (aluMod x y).toNat = x.toNat % y.toNat := by
  simp only [aluMod, BitVec.toNat_ofNat]
  exact Nat.mod_eq_of_lt ((Nat.mod_le _ _).trans_lt x.isLt)

end Sys2Proof.Machine
end

