-- ==== Sys2Proof/Laws/Step.lean ====
section
/-! SUPPORT. Said once: every body of an instruction answers a next state, all that `cycle` and `step` can do, and what
the stack operation of PUSH and CALL does. -/

namespace Sys2Proof.Machine

/-- The body of every instruction answers a next state: a fatal error is a next state too (R117). -/
theorem exec_answers_next (i : Instr) (s : State) : ∃ t, exec i s = .next t := by
  cases i <;> exact ⟨_, rfl⟩

/-- All that one cycle can do, when it answers a next state. -/
theorem cycle_cases {opc : OpcodeMap} {s t : State} (h : cycle opc s = .next t) :
    s.run = .running ∧
      ((∃ i, decode opc (s.memRead s.pc) (s.memRead (s.pc + 1#8)) (s.memRead (s.pc + 2#8)) = .instr i ∧
          exec i s = .next t) ∨
        (∃ o, decode opc (s.memRead s.pc) (s.memRead (s.pc + 1#8)) (s.memRead (s.pc + 2#8)) = .unsupported o ∧
          t = s.raise .unsupportedInstruction)) := by
  unfold cycle at h
  split at h
  · cases h
  · cases h
  · rename_i hr
    refine ⟨hr, ?_⟩
    split at h
    · rename_i i hd
      exact .inl ⟨i, hd, h⟩
    · rename_i o hd
      cases h
      exact .inr ⟨o, hd, rfl⟩

theorem step_cases {s t : State} (h : step s = .next t) :
    s.run = .running ∧
      ((∃ i, decode defaultOpc (s.memRead s.pc) (s.memRead (s.pc + 1#8)) (s.memRead (s.pc + 2#8)) = .instr i ∧
          exec i s = .next t) ∨
        (∃ o, decode defaultOpc (s.memRead s.pc) (s.memRead (s.pc + 1#8)) (s.memRead (s.pc + 2#8)) = .unsupported o ∧
          t = s.raise .unsupportedInstruction)) :=
  cycle_cases h

/-- A running machine whose bytes decode runs that instruction, under any opcode map. -/
theorem cycle_of_decode {opc : OpcodeMap} {s : State} {i : Instr} (hr : s.run = .running)
    (hd : decode opc (s.memRead s.pc) (s.memRead (s.pc + 1#8)) (s.memRead (s.pc + 2#8)) = .instr i) :
    cycle opc s = exec i s := by
  simp [cycle, hr, hd]

/-- A running machine whose bytes do not decode takes UnsupportedInstruction, under any opcode map. -/
theorem cycle_of_unsupported {opc : OpcodeMap} {s : State} {o : Byte} (hr : s.run = .running)
    (hd : decode opc (s.memRead s.pc) (s.memRead (s.pc + 1#8)) (s.memRead (s.pc + 2#8)) = .unsupported o) :
    cycle opc s = .next (s.raise .unsupportedInstruction) := by
  simp [cycle, hr, hd]

/-- A run of `n + 1` steps whose first step answers a next state goes on from there. -/
theorem run_succ_of_next {s t : State} (h : step s = .next t) (n : Nat) :
    Host.Core.run Sys2Proof.core (n + 1) s = Host.Core.run Sys2Proof.core n t := by
  have hc : Sys2Proof.core.step s = .next t := h
  simp only [Host.Core.run, hc]

/-- A run stops where its first step faults. -/
theorem run_succ_of_fault {s : State} {f : Fault} (h : step s = .fault f) (n : Nat) :
    Host.Core.run Sys2Proof.core (n + 1) s = .fault f := by
  have hc : Sys2Proof.core.step s = .fault f := h
  simp only [Host.Core.run, hc]

/-- What the stack operation of PUSH and CALL does: one register, one cell. -/
theorem pushValue_spec (s : State) (value : State → Byte) :
    pushValue s value =
      (s.setReg Config.sp (s.reg Config.sp - 1#8)).memWrite (s.reg Config.sp - 1#8)
        (value (s.setReg Config.sp (s.reg Config.sp - 1#8))) := by
  simp [pushValue]

/-- The lookup of the decoder finds a mnemonic exactly when the map gives it that byte. -/
theorem decodeOpcode_eq_some {opc : OpcodeMap} {o : Byte} {m : Mnemonic} (h : decodeOpcode opc o = some m) :
    opc m = o := by
  simpa using List.find?_some h

theorem decodeOpcode_eq_none_iff {opc : OpcodeMap} {o : Byte} : decodeOpcode opc o = none ↔ ∀ m, opc m ≠ o := by
  have hall : ∀ m : Mnemonic, m ∈ Mnemonic.all := by intro m; cases m <;> decide
  simp only [decodeOpcode, List.find?_eq_none, decide_eq_true_eq]
  exact ⟨fun h m => h m (hall m), fun h m _ => h m⟩

end Sys2Proof.Machine
end

