-- ==== Sys2Proof/Laws/Exec.lean ====
section
/-! SUPPORT. Said once: all that the body of an instruction can do. It takes a fatal error, of a cause that `raises` names,
or it has its effect, with its register operands resolved. -/

namespace Sys2Proof.Machine

/-- When the body of `i` takes the fatal error `c` in `s`. -/
def raises (i : Instr) (s : State) (c : Cause) : Prop :=
  (c = .badRegisterIndex ∧ i.wellFormed = false) ∨
    (c = .divideByZero ∧ ∃ j k : RegIdx, s.reg k = 0#8 ∧
      (i = .div (regByte j) (regByte k) ∨ i = .mod (regByte j) (regByte k)))

/-- The effect of `i` from `s` to `t` where no fatal error is taken. -/
def normalEffect (i : Instr) (s t : State) : Prop :=
  match i with
  | .add a b => ∃ j k, a = regByte j ∧ b = regByte k ∧ t = (s.setReg j (aluAdd (s.reg j) (s.reg k))).advance 3
  | .sub a b => ∃ j k, a = regByte j ∧ b = regByte k ∧ t = (s.setReg j (aluSub (s.reg j) (s.reg k))).advance 3
  | .mul a b => ∃ j k, a = regByte j ∧ b = regByte k ∧ t = (s.setReg j (aluMul (s.reg j) (s.reg k))).advance 3
  | .div a b => ∃ j k, a = regByte j ∧ b = regByte k ∧ s.reg k ≠ 0#8 ∧
      t = (s.setReg j (aluDiv (s.reg j) (s.reg k))).advance 3
  | .mod a b => ∃ j k, a = regByte j ∧ b = regByte k ∧ s.reg k ≠ 0#8 ∧
      t = (s.setReg j (aluMod (s.reg j) (s.reg k))).advance 3
  | .cmp a b => ∃ j k, a = regByte j ∧ b = regByte k ∧ t = (s.setFlagE (decide (s.reg j = s.reg k))).advance 3
  | .push a => ∃ j, a = regByte j ∧ t = (pushValue s fun u => u.reg j).advance 2
  | .pop a => ∃ j, a = regByte j ∧
      t = ((s.setReg j (s.memRead (s.reg 7))).setReg 7 ((s.setReg j (s.memRead (s.reg 7))).reg 7 + 1#8)).advance 2
  | .call a => ∃ j, a = regByte j ∧
      t = (pushValue s fun _ => s.pc + 2#8).setPc ((pushValue s fun _ => s.pc + 2#8).reg j)
  | .ret => t = (s.setPc (s.memRead (s.reg 7))).setReg 7 (s.reg 7 + 1#8)
  | .jmp a => ∃ j, a = regByte j ∧ t = s.setPc (s.reg j)
  | .jeq a => (s.flagE = true ∧ ∃ j, a = regByte j ∧ t = s.setPc (s.reg j)) ∨ (s.flagE = false ∧ t = s.advance 2)
  | .jne a => (s.flagE = false ∧ ∃ j, a = regByte j ∧ t = s.setPc (s.reg j)) ∨ (s.flagE = true ∧ t = s.advance 2)
  | .hlt => t = (s.setRun .halted).advance 1
  | .ldi a imm => ∃ j, a = regByte j ∧ t = (s.setReg j imm).advance 3
  | .prn a => ∃ j, a = regByte j ∧ t = (s.emit (s.reg j)).advance 2

/-- A body over one register operand: it raises, or the byte names a register and the body runs on it. -/
theorem withReg_inv {a : Byte} {s t : State} {body : RegIdx → State} (h : withReg a s body = t) :
    (t = s.raise .badRegisterIndex ∧ ¬ a.toNat < 8) ∨ ∃ j, a = regByte j ∧ t = body j := by
  subst h
  obtain ⟨j, hj, h⟩ | ⟨hn, h⟩ := withReg_cases a s body
  · exact .inr ⟨j, regIdx_eq_some_iff.mp hj, h⟩
  · exact .inl ⟨h, regIdx_eq_none_iff_not_lt.mp hn⟩

/-- A body over two register operands. -/
theorem withRegs_inv {a b : Byte} {s t : State} {body : RegIdx → RegIdx → State} (h : withRegs a b s body = t) :
    (t = s.raise .badRegisterIndex ∧ ¬ (a.toNat < 8 ∧ b.toNat < 8)) ∨
      ∃ j k, a = regByte j ∧ b = regByte k ∧ t = body j k := by
  subst h
  obtain ⟨j, k, hj, hk, h⟩ | ⟨hn, h⟩ := withRegs_cases a b s body
  · exact .inr ⟨j, k, regIdx_eq_some_iff.mp hj, regIdx_eq_some_iff.mp hk, h⟩
  · refine .inl ⟨h, fun hab => ?_⟩
    rcases hn with hn | hn
    · exact regIdx_eq_none_iff_not_lt.mp hn hab.1
    · exact regIdx_eq_none_iff_not_lt.mp hn hab.2

/-- The body shared by DIV and MOD: it raises one of two causes, or the divisor is not zero and the result is written. -/
theorem arithNonzero_inv {f : Byte → Byte → Byte} {a b : Byte} {s t : State} (h : arithNonzero f a b s = t) :
    (t = s.raise .badRegisterIndex ∧ ¬ (a.toNat < 8 ∧ b.toNat < 8)) ∨
      (∃ j k, a = regByte j ∧ b = regByte k ∧ s.reg k = 0#8 ∧ t = s.raise .divideByZero) ∨
      ∃ j k, a = regByte j ∧ b = regByte k ∧ s.reg k ≠ 0#8 ∧ t = (s.setReg j (f (s.reg j) (s.reg k))).advance 3 := by
  obtain hb | ⟨j, k, hj, hk, ht⟩ := withRegs_inv h
  · exact .inl hb
  · split at ht
    · exact .inr (.inl ⟨j, k, hj, hk, by assumption, ht⟩)
    · exact .inr (.inr ⟨j, k, hj, hk, by assumption, ht⟩)

/-- All that a body can do, when it answers a next state; it always does (`exec_answers_next`). -/
theorem exec_cases {i : Instr} {s t : State} (h : exec i s = .next t) :
    (∃ c, t = s.raise c ∧ raises i s c) ∨ normalEffect i s t := by
  have bad : ∀ {P : Prop}, (t = s.raise .badRegisterIndex ∧ P) → (P → i.wellFormed = false) →
      (∃ c, t = s.raise c ∧ raises i s c) := fun hb hw => ⟨_, hb.1, .inl ⟨rfl, hw hb.2⟩⟩
  cases i <;> injection h with h
  case add => exact (withRegs_inv h).imp (fun hb => bad hb (by simp [Instr.wellFormed, Instr.registerBytes])) id
  case sub => exact (withRegs_inv h).imp (fun hb => bad hb (by simp [Instr.wellFormed, Instr.registerBytes])) id
  case mul => exact (withRegs_inv h).imp (fun hb => bad hb (by simp [Instr.wellFormed, Instr.registerBytes])) id
  case cmp => exact (withRegs_inv h).imp (fun hb => bad hb (by simp [Instr.wellFormed, Instr.registerBytes])) id
  case div =>
    obtain hb | ⟨j, k, rfl, rfl, hz, ht⟩ | he := arithNonzero_inv h
    · exact .inl (bad hb (by simp [Instr.wellFormed, Instr.registerBytes]))
    · exact .inl ⟨_, ht, .inr ⟨rfl, j, k, hz, .inl rfl⟩⟩
    · exact .inr he
  case mod =>
    obtain hb | ⟨j, k, rfl, rfl, hz, ht⟩ | he := arithNonzero_inv h
    · exact .inl (bad hb (by simp [Instr.wellFormed, Instr.registerBytes]))
    · exact .inl ⟨_, ht, .inr ⟨rfl, j, k, hz, .inr rfl⟩⟩
    · exact .inr he
  case push => exact (withReg_inv h).imp (fun hb => bad hb (by simp [Instr.wellFormed, Instr.registerBytes])) id
  case pop => exact (withReg_inv h).imp (fun hb => bad hb (by simp [Instr.wellFormed, Instr.registerBytes])) id
  case call => exact (withReg_inv h).imp (fun hb => bad hb (by simp [Instr.wellFormed, Instr.registerBytes])) id
  case jmp => exact (withReg_inv h).imp (fun hb => bad hb (by simp [Instr.wellFormed, Instr.registerBytes])) id
  case ldi => exact (withReg_inv h).imp (fun hb => bad hb (by simp [Instr.wellFormed, Instr.registerBytes])) id
  case prn => exact (withReg_inv h).imp (fun hb => bad hb (by simp [Instr.wellFormed, Instr.registerBytes])) id
  case jeq =>
    split at h
    · exact (withReg_inv h).imp (fun hb => bad hb (by simp [Instr.wellFormed, Instr.registerBytes]))
        fun he => .inl ⟨by assumption, he⟩
    · exact .inr (.inr ⟨Bool.eq_false_iff.mpr ‹_›, h.symm⟩)
  case jne =>
    split at h
    · exact .inr (.inr ⟨by assumption, h.symm⟩)
    · exact (withReg_inv h).imp (fun hb => bad hb (by simp [Instr.wellFormed, Instr.registerBytes]))
        fun he => .inl ⟨Bool.eq_false_iff.mpr ‹_›, he⟩
  case ret => exact .inr h.symm
  case hlt => exact .inr h.symm

end Sys2Proof.Machine
end

