-- ==== Sys2Proof/Laws/PerInstr.lean ====
section
/-! SUPPORT. The family SlotsRebuild: the operand bytes of an instruction, laid in the two operand slots with anything
after them, rebuild the instruction from its mnemonic, and their number is its width less the opcode byte. -/

namespace Sys2Proof.Laws.SlotsRebuild

/-- What every instruction's syntax satisfies (R81, R82). -/
def Statement (i : Instr) : Prop :=
  (∀ rest : List Byte,
      Instr.ofSlots i.mnemonic ((i.operandBytes ++ rest).getD 0 0#8) ((i.operandBytes ++ rest).getD 1 0#8) = i) ∧
    i.operandBytes.length + 1 = i.width

theorem add (ra rb : Byte) : Statement (.add ra rb) := ⟨fun _ => rfl, rfl⟩
theorem sub (ra rb : Byte) : Statement (.sub ra rb) := ⟨fun _ => rfl, rfl⟩
theorem mul (ra rb : Byte) : Statement (.mul ra rb) := ⟨fun _ => rfl, rfl⟩
theorem div (ra rb : Byte) : Statement (.div ra rb) := ⟨fun _ => rfl, rfl⟩
theorem mod (ra rb : Byte) : Statement (.mod ra rb) := ⟨fun _ => rfl, rfl⟩
theorem cmp (ra rb : Byte) : Statement (.cmp ra rb) := ⟨fun _ => rfl, rfl⟩
theorem push (r : Byte) : Statement (.push r) := ⟨fun _ => rfl, rfl⟩
theorem pop (r : Byte) : Statement (.pop r) := ⟨fun _ => rfl, rfl⟩
theorem call (r : Byte) : Statement (.call r) := ⟨fun _ => rfl, rfl⟩
theorem ret : Statement .ret := ⟨fun _ => rfl, rfl⟩
theorem jmp (r : Byte) : Statement (.jmp r) := ⟨fun _ => rfl, rfl⟩
theorem jeq (r : Byte) : Statement (.jeq r) := ⟨fun _ => rfl, rfl⟩
theorem jne (r : Byte) : Statement (.jne r) := ⟨fun _ => rfl, rfl⟩
theorem hlt : Statement .hlt := ⟨fun _ => rfl, rfl⟩
theorem ldi (r imm : Byte) : Statement (.ldi r imm) := ⟨fun _ => rfl, rfl⟩
theorem prn (r : Byte) : Statement (.prn r) := ⟨fun _ => rfl, rfl⟩

end Sys2Proof.Laws.SlotsRebuild
end

