-- ==== Sys2Proof/Tests/Slice0.lean ====
section
/-! SUPPORT. The model's own tests. Expected results come from the spec's encodings (spec/30_encoding.md R81, R85) and its
worked vectors (spec/95_test_vectors.md, cited by their number). Then, for every statement with hypotheses, a witness that
meets them. -/

namespace Sys2Proof.Tests

open Sys2Proof.Machine

/-- A running machine with `bytes` at `pc`, and registers `r0`, `r1` and the stack pointer as given. -/
def machine (bytes : List Byte) (pc : Addr) (r0 r1 sp : Byte) (fl : Byte := 0x00#8) : State :=
  State.placeBytes
    { State.reset with pc := pc, fl := fl, regs := #v[r0, r1, 0x00#8, 0x00#8, 0x00#8, 0x00#8, 0x00#8, sp] } pc bytes

/-- The state after one step; the state itself where no step exists. -/
def after (s : State) : State :=
  match step s with
  | .next t => t
  | .fault _ => s
  | .refused _ => s

/-! ## Decoding: each word written out bit by bit from R81 and R85 -/

theorem test_decode_add : decode defaultOpc 0b10100000#8 0b00000000#8 0b00000001#8 = .instr (.add 0#8 1#8) := by decide
theorem test_decode_sub : decode defaultOpc 0b10100001#8 0b00000010#8 0b00000011#8 = .instr (.sub 2#8 3#8) := by decide
theorem test_decode_mul : decode defaultOpc 0b10100010#8 0b00000101#8 0b00000100#8 = .instr (.mul 5#8 4#8) := by decide
theorem test_decode_div : decode defaultOpc 0b10100011#8 0b00000110#8 0b00000001#8 = .instr (.div 6#8 1#8) := by decide
theorem test_decode_mod : decode defaultOpc 0b10100100#8 0b00000111#8 0b00000000#8 = .instr (.mod 7#8 0#8) := by decide
theorem test_decode_cmp : decode defaultOpc 0b10100111#8 0b00000001#8 0b00000010#8 = .instr (.cmp 1#8 2#8) := by decide
theorem test_decode_push : decode defaultOpc 0b01000101#8 0b00000110#8 0xFF#8 = .instr (.push 6#8) := by decide
theorem test_decode_pop : decode defaultOpc 0b01000110#8 0b00000101#8 0xFF#8 = .instr (.pop 5#8) := by decide
theorem test_decode_call : decode defaultOpc 0b01010000#8 0b00000011#8 0xFF#8 = .instr (.call 3#8) := by decide
theorem test_decode_ret : decode defaultOpc 0b00010001#8 0xFF#8 0xFF#8 = .instr .ret := by decide
theorem test_decode_jmp : decode defaultOpc 0b01010100#8 0b00000010#8 0xFF#8 = .instr (.jmp 2#8) := by decide
theorem test_decode_jeq : decode defaultOpc 0b01010101#8 0b00000100#8 0xFF#8 = .instr (.jeq 4#8) := by decide
theorem test_decode_jne : decode defaultOpc 0b01010110#8 0b00000111#8 0xFF#8 = .instr (.jne 7#8) := by decide
theorem test_decode_hlt : decode defaultOpc 0b00000001#8 0xFF#8 0xFF#8 = .instr .hlt := by decide
theorem test_decode_ldi : decode defaultOpc 0b10000010#8 0b00000000#8 0b00101010#8 = .instr (.ldi 0#8 42#8) := by decide
theorem test_decode_prn : decode defaultOpc 0b01000111#8 0b00000001#8 0xFF#8 = .instr (.prn 1#8) := by decide

/-- E3: ALU-looking bits that are not in the map; R88, R89: 0x00 is no instruction. -/
theorem test_decode_rejects :
    decode defaultOpc 0xA5#8 0#8 1#8 = .unsupported 0xA5#8 ∧ decode defaultOpc 0x00#8 0#8 0#8 = .unsupported 0x00#8 := by
  decide

set_option maxRecDepth 4000 in
/-- R88: 240 of the 256 opcode bytes are unsupported under the default map. -/
theorem test_decode_rejects_240 :
    ((List.range 256).filter fun n => (decodeOpcode defaultOpc (BitVec.ofNat 8 n)).isNone).length = 240 := by decide

/-- R86: under the default map the top two bits of an opcode are its number of operand bytes. -/
theorem test_width_matches_default_opcode_bits :
    Mnemonic.all.all (fun m => decide (m.width = 1 + (defaultOpc m >>> 6).toNat)) = true := by decide

/-! ## WellFormed: one ill-formed term for each register position -/

theorem test_wf_refuses_first_of_two : (Instr.add 0x08#8 0x00#8).wellFormed = false := by decide
theorem test_wf_refuses_second_of_two : (Instr.cmp 0x00#8 0xFF#8).wellFormed = false := by decide
theorem test_wf_refuses_single : (Instr.push 0x08#8).wellFormed = false := by decide
theorem test_wf_refuses_ldi_register : (Instr.ldi 0x80#8 0x00#8).wellFormed = false := by decide
theorem test_wf_accepts :
    (Instr.add 0x07#8 0x00#8).wellFormed = true ∧ (Instr.ldi 0x07#8 0xFF#8).wellFormed = true ∧
      Instr.ret.wellFormed = true := by decide

/-! ## One step each -/

/-- A6: the bytes stand at 0xFE, 0xFF and 0x00. -/
theorem test_add_straddles_the_top :
    (after (machine [0xA0#8, 0#8, 1#8] 0xFE#8 5#8 3#8 0xF3#8)).reg 0 = 8#8 ∧
      (after (machine [0xA0#8, 0#8, 1#8] 0xFE#8 5#8 3#8 0xF3#8)).pc = 0x01#8 := by decide

/-- A16: the carry is lost and `fl` is unchanged. -/
theorem test_add_wraps :
    (after (machine [0xA0#8, 0#8, 1#8] 0#8 255#8 1#8 0xF3#8 0x01#8)).reg 0 = 0#8 ∧
      (after (machine [0xA0#8, 0#8, 1#8] 0#8 255#8 1#8 0xF3#8 0x01#8)).fl = 0x01#8 := by decide

/-- A8. -/
theorem test_sub_wraps : (after (machine [0xA1#8, 0#8, 1#8] 0#8 0#8 1#8 0xF3#8)).reg 0 = 255#8 := by decide

/-- A13. -/
theorem test_mul_keeps_the_low_byte : (after (machine [0xA2#8, 0#8, 1#8] 0#8 255#8 2#8 0xF3#8)).reg 0 = 254#8 := by decide

/-- V3. -/
theorem test_div_quotient : (after (machine [0xA3#8, 0#8, 1#8] 0#8 255#8 2#8 0xF3#8)).reg 0 = 127#8 := by decide

/-- V17: the index is checked before the divisor. -/
theorem test_div_bad_index_first :
    (after (machine [0xA3#8, 9#8, 1#8] 0#8 10#8 0#8 0xF3#8)).run = .faulted ⟨.badRegisterIndex, 0#8, 0xA3#8, 9#8, 1#8⟩ := by
  decide

/-- V10. -/
theorem test_mod_remainder : (after (machine [0xA4#8, 0#8, 1#8] 0#8 255#8 16#8 0xF3#8)).reg 0 = 15#8 := by decide

/-- V14. -/
theorem test_mod_by_zero :
    after (machine [0xA4#8, 0#8, 1#8] 6#8 10#8 0#8 0xF3#8) =
      { machine [0xA4#8, 0#8, 1#8] 6#8 10#8 0#8 0xF3#8 with run := .faulted ⟨.divideByZero, 6#8, 0xA4#8, 0#8, 1#8⟩ } := by
  decide

/-- M1 and M2. -/
theorem test_cmp_sets_and_clears :
    (after (machine [0xA7#8, 0#8, 1#8] 0#8 7#8 7#8 0xF3#8)).fl = 0x01#8 ∧
      (after (machine [0xA7#8, 0#8, 1#8] 0#8 7#8 8#8 0xF3#8 0x01#8)).fl = 0x00#8 := by decide

/-- K3: the stack pointer wraps below zero. -/
theorem test_push_wraps :
    (after (machine [0x45#8, 0#8] 6#8 0xAB#8 0#8 0x00#8)).reg 7 = 0xFF#8 ∧
      (after (machine [0x45#8, 0#8] 6#8 0xAB#8 0#8 0x00#8)).memRead 0xFF#8 = 0xAB#8 := by decide

/-- K5: `PUSH R7` stores the decremented stack pointer. -/
theorem test_push_stack_pointer : (after (machine [0x45#8, 7#8] 8#8 0#8 0#8 0xFF#8)).memRead 0xFE#8 = 0xFE#8 := by decide

/-- K8: a POP on an empty stack is no error. -/
theorem test_pop_empty_stack :
    (after (machine [0x46#8, 0#8] 0#8 9#8 0#8 0xF3#8)).reg 0 = 0x00#8 ∧
      (after (machine [0x46#8, 0#8] 0#8 9#8 0#8 0xF3#8)).reg 7 = 0xF4#8 := by decide

/-- K7: `POP R7` ends one above the popped byte. -/
theorem test_pop_stack_pointer :
    (after ((machine [0x46#8, 7#8] 0#8 0#8 0#8 0x40#8).memWrite 0x40#8 0xFF#8)).reg 7 = 0x00#8 := by decide

/-- L3: the return address of a CALL at 0xFE. -/
theorem test_call_at_the_top :
    (after (machine [0x50#8, 1#8] 0xFE#8 0#8 0x20#8 0xF3#8)).pc = 0x20#8 ∧
      (after (machine [0x50#8, 1#8] 0xFF#8 0#8 0x20#8 0xF3#8)).memRead 0xF2#8 = 0x01#8 := by decide

/-- L6: `CALL R7` jumps to the decremented stack pointer. -/
theorem test_call_stack_pointer : (after (machine [0x50#8, 7#8] 0#8 0#8 0#8 0xF3#8)).pc = 0xF2#8 := by decide

/-- L9: a popped 0 gives 0, not 255. -/
theorem test_ret_to_zero :
    (after (machine [0x11#8] 0x40#8 0#8 0#8 0xF2#8)).pc = 0x00#8 ∧
      (after (machine [0x11#8] 0x40#8 0#8 0#8 0xF2#8)).reg 7 = 0xF3#8 := by decide

/-- J2 and J3. -/
theorem test_jmp_targets :
    (after (machine [0x54#8, 0#8] 3#8 0x00#8 0xFF#8 0xF3#8)).pc = 0x00#8 ∧
      (after (machine [0x54#8, 1#8] 3#8 0x00#8 0xFF#8 0xF3#8)).pc = 0xFF#8 := by decide

/-- J9 and J11: a JEQ that is not taken goes on 2 bytes and does not look at its operand. -/
theorem test_jeq_not_taken :
    (after (machine [0x55#8, 2#8] 0xFF#8 0#8 0#8 0xF3#8)).pc = 0x01#8 ∧
      (after (machine [0x55#8, 9#8] 0#8 0#8 0#8 0xF3#8)).pc = 0x02#8 := by decide

/-- J5. -/
theorem test_jeq_taken : (after (machine [0x55#8, 1#8] 0x10#8 0#8 0x20#8 0xF3#8 0x01#8)).pc = 0x20#8 := by decide

/-- J13 and J8. -/
theorem test_jne :
    (after (machine [0x56#8, 0#8] 3#8 6#8 0#8 0xF3#8)).pc = 0x06#8 ∧
      (after (machine [0x56#8, 0#8] 0x14#8 0x0C#8 0#8 0xF3#8 0x01#8)).pc = 0x16#8 := by decide

/-- H2. -/
theorem test_hlt_at_the_top :
    (after (machine [0x01#8] 0xFF#8 0#8 0#8 0xF3#8)).run = .halted ∧
      (after (machine [0x01#8] 0xFF#8 0#8 0#8 0xF3#8)).pc = 0x00#8 := by decide

/-- H4 and H6. -/
theorem test_ldi :
    (after (machine [0x82#8, 7#8, 9#8] 0#8 0#8 0#8 0xF3#8)).reg 7 = 0x09#8 ∧
      (after (machine [0x82#8, 5#8, 0xFF#8] 0#8 0#8 0#8 0xF3#8)).reg 5 = 255#8 := by decide

/-- H9. -/
theorem test_prn_appends :
    (after { machine [0x47#8, 7#8] 0#8 0#8 0#8 0xF3#8 with out := [42#8] }).out = [42#8, 243#8] := by decide

/-- E1, from the state right after reset: memory reads 0x00, which is no instruction (R244). -/
theorem test_reset_steps_to_unsupported :
    after State.reset = { State.reset with run := .faulted ⟨.unsupportedInstruction, 0#8, 0#8, 0#8, 0#8⟩ } := by decide

/-- The word that `withFetchWord` places is run by the very next step. -/
theorem test_with_fetch_word : (after (State.reset.withFetchWord 24 0x2A0082)).reg 0 = 42#8 := by decide

/-! ## Witnesses: the hypotheses of each statement are met -/

theorem witness_defaultOpc_injective : Function.Injective defaultOpc := by
  intro m n
  cases m <;> cases n <;> decide

/-- EncodeOfDecodeIsTheFetchedBytes, and the format R clause of FetchReadsThreeBytesAndIgnoresUnusedSlots. -/
theorem witness_decoded_push :
    decode defaultOpc 0x45#8 0x07#8 0xFF#8 = .instr (.push 0x07#8) ∧ (Instr.push 0x07#8).mnemonic.format = .r := by decide

/-- The format Z clause of FetchReadsThreeBytesAndIgnoresUnusedSlots. -/
theorem witness_decoded_ret :
    decode defaultOpc 0x11#8 0xFF#8 0xFF#8 = .instr .ret ∧ Instr.ret.mnemonic.format = .z := by decide

/-- DecodeLooksUpTheWholeOpcodeByte: a byte in the map, and one in no entry of it. -/
theorem witness_opcode_in_and_out_of_map :
    defaultOpc .hlt = 0x01#8 ∧ ∀ m, defaultOpc m ≠ 0x00#8 := by
  refine ⟨by decide, fun m => ?_⟩
  cases m <;> decide

/-- The addresses of FetchReadsThreeBytesAndIgnoresUnusedSlots and AddressesAndPcWrapModulo256 at the top of memory, and the
stack address at the bottom. -/
theorem witness_wrapped_addresses :
    (0x00#8).toNat = ((0xFF#8).toNat + 1) % 256 ∧ (0x01#8).toNat = ((0xFF#8).toNat + 2) % 256 ∧
      (0xFF#8).toNat = ((0x00#8).toNat + 255) % 256 := by decide

/-- The four clauses of StepRunsTheDecodedInstruction; StoppedMachineStaysStopped. -/
theorem witness_run_states :
    (machine [0x01#8] 0xFF#8 0#8 0#8 0xF3#8).run = .running ∧
      (machine [0x01#8] 0xFF#8 0#8 0#8 0xF3#8).decoded = .instr .hlt ∧
      State.reset.run = .running ∧ State.reset.decoded = .unsupported 0x00#8 ∧
      (after (machine [0x01#8] 0xFF#8 0#8 0#8 0xF3#8)).run = .halted ∧
      (after State.reset).run = .faulted ⟨.unsupportedInstruction, 0#8, 0#8, 0#8, 0#8⟩ := by decide

/-- StoredEncodingRunsUnderAnyOpcodeMap, with the bytes across the top of memory. -/
theorem witness_stored_encoding (k : Nat) (h : k < (Instr.ldi 3#8 0x82#8).width) :
    (machine [0x82#8, 3#8, 0x82#8] 0xFE#8 0#8 0#8 0xF3#8).run = .running ∧
      (machine [0x82#8, 3#8, 0x82#8] 0xFE#8 0#8 0#8 0xF3#8).memRead (0xFE#8 + BitVec.ofNat 8 k) =
        (encode defaultOpc (.ldi 3#8 0x82#8)).getD k 0#8 := by
  have hk : k < 3 := h
  interval_cases k <;> decide

/-- PlacedWordIsWhatTheStepRuns. -/
theorem witness_table_word :
    decodeTableWord 8 0x01 = some .hlt ∧ decodeTableWord 24 0xFF0782 = some (.ldi 7#8 0xFF#8) := by decide

/-- PlacedWordIsWhatTheStepRuns: a cell outside the three, with `pc` at the top of memory. -/
theorem witness_other_cell : (0x02#8 : Addr) ≠ 0xFF#8 ∧ (0x02#8 : Addr) ≠ 0xFF#8 + 1#8 ∧ (0x02#8 : Addr) ≠ 0xFF#8 + 2#8 := by
  decide

/-- RunStartRegistersAreZeroButTheStackPointer, LoaderPutsByteKAtAddressK and LaunchStateBeyondTheImage, at and beyond the
longest image. -/
theorem witness_images :
    (List.replicate 256 0x01#8).length ≤ 256 ∧ 255 < (List.replicate 256 0x01#8).length ∧
      256 < (List.replicate 257 0x01#8).length ∧ ([] : List Byte).length ≤ 255 := by
  simp only [List.length_replicate, List.length_nil]
  decide

/-- LaunchStatesMeetTheInvariant. -/
theorem witness_launch : ∃ s, runStart [0x82#8, 0x00#8, 0x2A#8] = .next s := ⟨_, rfl⟩

/-- DivideByZeroIsRaisedByDivAndModOnly; StepKeepsTheInvariant, and a step that takes a fatal error from a state with the invariant; the step of
FaultChangesOnlyTheRunState and of the DivideByZero clause of FaultCausesAreExact. -/
theorem witness_inv_and_fault :
    (machine [0xA3#8, 0#8, 1#8] 6#8 10#8 0#8 0xF3#8).inv ∧
      step (machine [0xA3#8, 0#8, 1#8] 6#8 10#8 0#8 0xF3#8) =
        .next (after (machine [0xA3#8, 0#8, 1#8] 6#8 10#8 0#8 0xF3#8)) ∧
      (after (machine [0xA3#8, 0#8, 1#8] 6#8 10#8 0#8 0xF3#8)).run =
        .faulted ⟨.divideByZero, 6#8, 0xA3#8, 0#8, 1#8⟩ ∧
      (machine [0xA3#8, 0#8, 1#8] 6#8 10#8 0#8 0xF3#8).run = .running ∧
      (machine [0xA3#8, 0#8, 1#8] 6#8 10#8 0#8 0xF3#8).decoded = .instr (.div (regByte 0) (regByte 1)) ∧
      (machine [0xA3#8, 0#8, 1#8] 6#8 10#8 0#8 0xF3#8).reg 1 = 0x00#8 :=
  ⟨by decide, rfl, by decide⟩

/-- The other two clauses of FaultCausesAreExact; the step of UnsupportedInstructionIsReportedWithItsAddress. -/
theorem witness_other_causes :
    step (machine [0x82#8, 8#8, 1#8] 0#8 0#8 0#8 0xF3#8) = .next (after (machine [0x82#8, 8#8, 1#8] 0#8 0#8 0#8 0xF3#8)) ∧
      (after (machine [0x82#8, 8#8, 1#8] 0#8 0#8 0#8 0xF3#8)).run = .faulted ⟨.badRegisterIndex, 0#8, 0x82#8, 8#8, 1#8⟩ ∧
      step State.reset = .next (after State.reset) ∧
      (after State.reset).run = .faulted ⟨.unsupportedInstruction, 0#8, 0#8, 0#8, 0#8⟩ :=
  ⟨rfl, by decide, rfl, by decide⟩

/-- CanonicalMemoriesThatReadAlikeAreEqual, with the last cell listed. -/
theorem witness_canonical_memory : Memory.wf [(0, 0x01#8), (255, 0xFF#8)] := by decide

/-- ReadReturnsTheMostRecentWrite: two writes to one cell, and one to another. -/
theorem witness_writes :
    (((State.reset.memWrite 0x10#8 1#8).memWrite 0x11#8 2#8).memWrite 0x10#8 0#8).memRead 0x10#8 = 0#8 := by decide

/-- DivModGiveQuotientAndRemainder, SameRegisterTwiceUsesTheOldValue and WellFormedInstructionsNeverFault; and
DivModByZeroStopTheMachine. -/
theorem witness_divisors :
    (machine [] 0#8 255#8 0#8 0xF3#8).reg 0 ≠ 0x00#8 ∧ (machine [] 0#8 255#8 0#8 0xF3#8).reg 1 = 0x00#8 := by decide

/-- WellFormedInstructionsNeverFault: a DIV in a running machine whose divisor is not zero. -/
theorem witness_well_formed_div :
    (Instr.div 0x00#8 (regByte 0)).wellFormed = true ∧ ¬ (machine [] 0#8 255#8 0#8 0xF3#8).failed ∧
      ∀ (a : Byte) (k : RegIdx), Instr.div 0x00#8 (regByte 0) = .div a (regByte k) ∨
        Instr.div 0x00#8 (regByte 0) = .mod a (regByte k) → (machine [] 0#8 255#8 0#8 0xF3#8).reg k ≠ 0x00#8 := by
  refine ⟨by decide, ?_, ?_⟩
  · rintro ⟨r, hr⟩
    cases hr
  · rintro a k (h | h)
    · have hk : k = 0 := by
        revert h
        simp only [Instr.div.injEq]
        rintro ⟨-, h⟩
        exact (by decide : ∀ k : RegIdx, regByte 0 = regByte k → k = 0) k h
      subst hk
      decide
    · cases h

/-- OnlyHaltOrAFaultEndsARun: a running machine at a DIV by register 0, which is not zero. -/
theorem witness_running_div :
    (machine [0xA3#8, 1#8, 0#8] 0#8 255#8 0#8 0xF3#8).run = .running ∧
      (machine [0xA3#8, 1#8, 0#8] 0#8 255#8 0#8 0xF3#8).decoded = .instr (.div 0x01#8 (regByte 0)) ∧
      Instr.div 0x01#8 (regByte 0) ≠ .hlt ∧ (Instr.div 0x01#8 (regByte 0)).wellFormed = true ∧
      (machine [0xA3#8, 1#8, 0#8] 0#8 255#8 0#8 0xF3#8).reg 0 ≠ 0x00#8 ∧
      ∀ k : RegIdx, regByte 0 = regByte k → k = 0 := by decide

/-- AluInstructionsUseNoMemoryAndNoOutput. -/
theorem witness_alu_mnemonic :
    (Instr.mod 0#8 9#8).mnemonic ∈ [Mnemonic.add, .sub, .mul, .div, .mod, .cmp] := by decide

/-- PushThenPopMovesTheValue, PopReadsTheStackTop and PushedByteIsFetchedAsTheNextOpcode: registers that are and are not the
stack pointer. -/
theorem witness_registers : (6 : RegIdx) ≠ 7 ∧ (0 : RegIdx) ≠ 7 ∧ (7 : RegIdx) = 7 := by decide

/-- PushedByteIsFetchedAsTheNextOpcode (program P6's third step). -/
theorem witness_push_into_the_program :
    (machine [0x45#8, 0#8] 6#8 1#8 0#8 0x09#8).run = .running ∧
      (machine [0x45#8, 0#8] 6#8 1#8 0#8 0x09#8).decoded = .instr (.push (regByte 0)) ∧
      (machine [0x45#8, 0#8] 6#8 1#8 0#8 0x09#8).reg 7 - 1#8 = (machine [0x45#8, 0#8] 6#8 1#8 0#8 0x09#8).pc + 2#8 := by
  decide

/-- ReturnResumesAfterTheCall: the state that CALL leaves meets the hypotheses on `u`. -/
theorem witness_call_state : ∃ t u : State, exec (.call (regByte 7)) (machine [] 0xFF#8 0#8 0#8 0x00#8) = .next t ∧
    u.reg 7 = t.reg 7 ∧ u.memRead (u.reg 7) = t.memRead (t.reg 7) := ⟨_, _, rfl, rfl, rfl⟩

/-- ConditionalBranchesReadTheEqualFlag, both clauses; the branch hypotheses of BadRegisterByteStopsTheMachine and
SequentialInstructionsAdvanceByTheirWidth. -/
theorem witness_flags :
    (machine [] 0#8 0#8 0#8 0xF3#8 0x01#8).fl.getLsbD 0 = true ∧ (machine [] 0#8 0#8 0#8 0xF3#8).fl.getLsbD 0 = false := by
  decide

/-- CompareThenBranchInAllFourCases, both clauses. -/
theorem witness_equal_and_different :
    (machine [] 0#8 7#8 7#8 0xF3#8).reg 0 = (machine [] 0#8 7#8 7#8 0xF3#8).reg 1 ∧
      (machine [] 0#8 7#8 8#8 0xF3#8).reg 0 ≠ (machine [] 0#8 7#8 8#8 0xF3#8).reg 1 := by decide

/-- BadRegisterByteStopsTheMachine: an ADD, and a taken JEQ and JNE. -/
theorem witness_bad_register :
    (Instr.add 0#8 8#8).wellFormed = false ∧ (Instr.add 0#8 8#8).mnemonic ≠ .jeq ∧ (Instr.add 0#8 8#8).mnemonic ≠ .jne ∧
      (Instr.jeq 9#8).wellFormed = false ∧ (machine [] 0#8 0#8 0#8 0xF3#8 0x01#8).fl.getLsbD 0 = true ∧
      (Instr.jne 9#8).wellFormed = false ∧ (machine [] 0#8 0#8 0#8 0xF3#8).fl.getLsbD 0 = false := by decide

/-- UnsupportedOpcodeStopsTheMachine, with 0xFF at `pc`. -/
theorem witness_unsupported :
    (machine [0xFF#8] 0#8 0#8 0#8 0xF3#8).run = .running ∧
      ∀ m, defaultOpc m ≠ (machine [0xFF#8] 0#8 0#8 0#8 0xF3#8).memRead (machine [0xFF#8] 0#8 0#8 0#8 0xF3#8).pc := by
  refine ⟨by decide, fun m => ?_⟩
  cases m <;> decide

/-- OnlyHaltCompletesARun and RunningMachineAlwaysSteps: a step that halts, from a running machine. -/
theorem witness_halting_step :
    (machine [0x01#8] 5#8 0#8 0#8 0xF3#8).run = .running ∧
      step (machine [0x01#8] 5#8 0#8 0#8 0xF3#8) = .next (after (machine [0x01#8] 5#8 0#8 0#8 0xF3#8)) ∧
      (after (machine [0x01#8] 5#8 0#8 0#8 0xF3#8)).completed := ⟨by decide, rfl, rfl⟩

/-- OnlyCompareWritesAndOnlyBranchesReadFlags: a step that changes `fl`, and an instruction that is no branch. -/
theorem witness_flag_change :
    step (machine [0xA7#8, 0#8, 1#8] 0#8 7#8 7#8 0xF3#8) = .next (after (machine [0xA7#8, 0#8, 1#8] 0#8 7#8 7#8 0xF3#8)) ∧
      (after (machine [0xA7#8, 0#8, 1#8] 0#8 7#8 7#8 0xF3#8)).fl ≠ (machine [0xA7#8, 0#8, 1#8] 0#8 7#8 7#8 0xF3#8).fl ∧
      (Instr.cmp 0#8 1#8).mnemonic ≠ .jeq ∧ (Instr.cmp 0#8 1#8).mnemonic ≠ .jne := ⟨rfl, by decide⟩

/-- OnlyPushAndCallWriteMemory and OnlyListedRegistersChange: a step that changes a cell and a register. -/
theorem witness_memory_and_register_change :
    step (machine [0x45#8, 0#8] 6#8 0x2A#8 0#8 0xF3#8) = .next (after (machine [0x45#8, 0#8] 6#8 0x2A#8 0#8 0xF3#8)) ∧
      (after (machine [0x45#8, 0#8] 6#8 0x2A#8 0#8 0xF3#8)).memRead 0xF2#8 ≠
        (machine [0x45#8, 0#8] 6#8 0x2A#8 0#8 0xF3#8).memRead 0xF2#8 ∧
      (after (machine [0x45#8, 0#8] 6#8 0x2A#8 0#8 0xF3#8)).reg 7 ≠
        (machine [0x45#8, 0#8] 6#8 0x2A#8 0#8 0xF3#8).reg 7 := ⟨rfl, by decide⟩

/-- OutputGrowsOnlyByPrint and NothingReadsTheOutput: a step that prints. -/
theorem witness_print_step :
    step (machine [0x47#8, 0#8] 3#8 42#8 0#8 0xF3#8) = .next (after (machine [0x47#8, 0#8] 3#8 42#8 0#8 0xF3#8)) ∧
      (after (machine [0x47#8, 0#8] 3#8 42#8 0#8 0xF3#8)).out = [42#8] := ⟨rfl, by decide⟩

/-- SequentialInstructionsAdvanceByTheirWidth: a JEQ that is not taken, at the top of memory. -/
theorem witness_sequential :
    step (machine [0x55#8, 9#8] 0xFF#8 0#8 0#8 0xF3#8) = .next (after (machine [0x55#8, 9#8] 0xFF#8 0#8 0#8 0xF3#8)) ∧
      (machine [0x55#8, 9#8] 0xFF#8 0#8 0#8 0xF3#8).decoded = .instr (.jeq 9#8) ∧
      (after (machine [0x55#8, 9#8] 0xFF#8 0#8 0#8 0xF3#8)).run = .running ∧
      (Instr.jeq 9#8).mnemonic ∉ [Mnemonic.call, .ret, .jmp] ∧
      (machine [0x55#8, 9#8] 0xFF#8 0#8 0#8 0xF3#8).fl.getLsbD 0 = false ∧ (Instr.jeq 9#8).mnemonic ≠ .jne :=
  ⟨rfl, by decide⟩

end Sys2Proof.Tests
end

section
/-! SUPPORT. Run start: when an image is accepted, what the loader leaves of the register file, and what reset puts there. -/

namespace Sys2Proof.Machine

/-- An image that memory can hold is loaded from `LOAD_BASE` on over the reset state (R233). -/
theorem runStart_of_fits {image : List Byte} (h : image.length ≤ 256) :
    runStart image = .next (State.reset.placeBytes Config.loadBase image) :=
  if_pos h

/-- Placing bytes in memory leaves every register as it is. -/
@[simp] theorem State.reg_placeBytes (s : State) (a : Addr) (bytes : List Byte) (i : RegIdx) :
    (s.placeBytes a bytes).reg i = s.reg i := by
  obtain ⟨hregs, -⟩ := State.placeBytes_frame bytes s a
  simp only [State.reg, hregs]

theorem State.reset_reg_of_ne_sp : ∀ i : RegIdx, i ≠ Config.sp → State.reset.reg i = 0x00#8 := by
  decide

@[simp] theorem State.reset_reg_sp : State.reset.reg Config.sp = Config.spReset := rfl

end Sys2Proof.Machine
end

section
/-! The state at run start (spec/10_state.md). -/

namespace Sys2Proof.Machine

/-- Settles O9: run start is the loader over the reset state, the loader leaves every register as it is, and reset's
registers are those that R25 names. -/
theorem runStartRegistersAreZeroButTheStackPointer :
    Obligations.RunStartRegistersAreZeroButTheStackPointer := by
  unfold Obligations.RunStartRegistersAreZeroButTheStackPointer
  intro image hfits
  refine ⟨_, runStart_of_fits hfits, fun i hi => ?_, ?_⟩
  · calc (State.reset.placeBytes Config.loadBase image).reg i
        = State.reset.reg i := State.reg_placeBytes ..
      _ = 0x00#8 := State.reset_reg_of_ne_sp i hi
  · calc (State.reset.placeBytes Config.loadBase image).reg Config.sp
        = State.reset.reg Config.sp := State.reg_placeBytes ..
      _ = Config.spReset := State.reset_reg_sp

end Sys2Proof.Machine
end

section
/-! SUPPORT. A read after a list of writes, and that one write touches one cell (R52). -/

namespace Sys2Proof.Machine

/-- The last write of the list to the cell decides what is read from it: each write, taken from the end of the list, either
is to that cell or leaves the read as it was. -/
theorem State.memRead_foldl_memWrite (s : State) (ws : List (Addr × Byte)) (a : Addr) :
    (ws.foldl (fun u w => u.memWrite w.1 w.2) s).memRead a =
      ((ws.reverse.find? fun w => decide (w.1 = a)).map Prod.snd).getD (s.memRead a) := by
  induction ws using List.reverseRecOn with
  | nil => rfl
  | append_singleton ws w ih =>
    simp only [List.foldl_append, List.foldl_cons, List.foldl_nil, List.reverse_append, List.reverse_singleton,
      List.singleton_append]
    by_cases hw : w.1 = a
    · simp [hw, State.memRead_memWrite_self]
    · rw [State.memRead_memWrite_of_ne _ _ hw, ih, List.find?_cons_of_neg (by simpa using hw)]

theorem State.sameMemoryOutside_memWrite (s : State) (a : Addr) (v : Byte) :
    sameMemoryOutside a s (s.memWrite a v) :=
  fun _ hb => State.memRead_memWrite_of_ne s v (Ne.symm hb)

end Sys2Proof.Machine
end

section
/-! SUPPORT. Sums of bytes modulo 256, what PUSH, POP, CALL and LDI do when their operand byte names a register, and where
the stack operation of PUSH and CALL stores. -/

namespace Sys2Proof.Machine

theorem byte_toNat_add_ofNat (q : Byte) (n : Nat) : (q + BitVec.ofNat 8 n).toNat = (q.toNat + n) % 256 := by
  simp [BitVec.toNat_add]

/-- An address known as a sum modulo 256 is the wrapping sum of bytes (R51). -/
theorem addr_eq_add_ofNat {p q : Addr} {n : Nat} (h : p.toNat = (q.toNat + n) % 256) : p = q + BitVec.ofNat 8 n :=
  BitVec.eq_of_toNat_eq (h.trans (byte_toNat_add_ofNat q n).symm)

theorem exec_push_regByte (i : RegIdx) (s : State) :
    exec (.push (regByte i)) s = .next ((pushValue s fun t => t.reg i).advance 2) :=
  congrArg Host.Outcome.next (withReg_regByte i s _)

theorem exec_pop_regByte (i : RegIdx) (s : State) :
    exec (.pop (regByte i)) s =
      .next (((s.setReg i (s.memRead (s.reg Config.sp))).setReg Config.sp
        ((s.setReg i (s.memRead (s.reg Config.sp))).reg Config.sp + 1#8)).advance 2) :=
  congrArg Host.Outcome.next (withReg_regByte i s _)

theorem exec_call_regByte (i : RegIdx) (s : State) :
    exec (.call (regByte i)) s =
      .next ((pushValue s fun _ => s.pc + 2#8).setPc ((pushValue s fun _ => s.pc + 2#8).reg i)) :=
  congrArg Host.Outcome.next (withReg_regByte i s _)

theorem exec_ldi_regByte (i : RegIdx) (imm : Byte) (s : State) :
    exec (.ldi (regByte i) imm) s = .next ((s.setReg i imm).advance 3) :=
  congrArg Host.Outcome.next (withReg_regByte i s _)

@[simp] theorem pushValue_pc (s : State) (value : State → Byte) : (pushValue s value).pc = s.pc := rfl

@[simp] theorem pushValue_reg_sp (s : State) (value : State → Byte) :
    (pushValue s value).reg Config.sp = s.reg Config.sp - 1#8 := by
  simp [pushValue_spec]

theorem pushValue_sameMemoryOutside (s : State) (value : State → Byte) :
    sameMemoryOutside (s.reg Config.sp - 1#8) s (pushValue s value) := by
  rw [pushValue_spec]
  exact State.sameMemoryOutside_memWrite (s.setReg Config.sp (s.reg Config.sp - 1#8)) _ _

/-- The decrement of the stack pointer is a wrapping sum, so PUSH and CALL store at `(sp + 255) mod 256` (R51). -/
theorem pushValue_stores_at {s : State} {d : Addr} (hd : d.toNat = ((s.reg Config.sp).toNat + 255) % 256)
    (value : State → Byte) :
    (pushValue s value).reg Config.sp = d ∧ sameMemoryOutside d s (pushValue s value) := by
  have hsub : d = s.reg Config.sp - 1#8 := by bv_omega
  subst hsub
  exact ⟨pushValue_reg_sp s value, pushValue_sameMemoryOutside s value⟩

end Sys2Proof.Machine
end

section
/-! Memory (spec/10_state.md). -/

namespace Sys2Proof.Machine

/-- Settles O14: by induction on the list of writes from its end, and by the frame of one write. -/
theorem readReturnsTheMostRecentWrite : Obligations.ReadReturnsTheMostRecentWrite := by
  unfold Obligations.ReadReturnsTheMostRecentWrite
  exact ⟨State.memRead_foldl_memWrite, fun s a v =>
    ⟨s.memWrite_regs a v, s.memWrite_pc a v, s.memWrite_fl a v, s.memWrite_run a v, s.memWrite_out a v,
      s.sameMemoryOutside_memWrite a v⟩⟩

/-- Settles O16: every address and every advance is a sum of bytes, and such a sum is taken modulo 256. -/
theorem addressesAndPcWrapModulo256 : Obligations.AddressesAndPcWrapModulo256 := by
  unfold Obligations.AddressesAndPcWrapModulo256
  refine ⟨rfl, fun s i => ⟨?fetchA, ?fetchB, ?push, ?call, ?pop, ?ret, ?ldi⟩⟩
  case fetchA => exact fun p hp => by rw [addr_eq_add_ofNat hp, State.fetch_a]
  case fetchB => exact fun p hp => by rw [addr_eq_add_ofNat hp, State.fetch_b]
  case push =>
    exact ⟨_, exec_push_regByte i s, byte_toNat_add_ofNat s.pc 2, fun d hd => pushValue_stores_at hd fun t => t.reg i⟩
  case call => exact ⟨_, exec_call_regByte i s, fun d hd => pushValue_stores_at hd fun _ => s.pc + 2#8⟩
  case pop =>
    refine ⟨_, exec_pop_regByte i s, byte_toNat_add_ofNat s.pc 2, fun hi => ?_⟩
    rw [State.reg_advance, State.reg_setReg_self, State.reg_setReg_of_ne s _ hi]
    exact byte_toNat_add_ofNat (s.reg Config.sp) 1
  case ret =>
    refine ⟨_, rfl, ?_⟩
    rw [State.reg_setReg_self, State.reg_setPc]
    exact byte_toNat_add_ofNat (s.reg Config.sp) 1
  case ldi => exact fun imm => ⟨_, exec_ldi_regByte i imm s, byte_toNat_add_ofNat s.pc 3⟩

end Sys2Proof.Machine
end

section
/-! SUPPORT. What `Instr.ofSlots` builds: its mnemonic, and which operand slots its format ignores (R81, R82); and what the
two answers of `decode` say of the opcode map (R87). -/

namespace Sys2Proof

open Laws

/-- Every instruction is in the family SlotsRebuild. -/
theorem slotsRebuild : ∀ i : Instr, SlotsRebuild.Statement i
  | .add ra rb => SlotsRebuild.add ra rb
  | .sub ra rb => SlotsRebuild.sub ra rb
  | .mul ra rb => SlotsRebuild.mul ra rb
  | .div ra rb => SlotsRebuild.div ra rb
  | .mod ra rb => SlotsRebuild.mod ra rb
  | .cmp ra rb => SlotsRebuild.cmp ra rb
  | .push r => SlotsRebuild.push r
  | .pop r => SlotsRebuild.pop r
  | .call r => SlotsRebuild.call r
  | .ret => SlotsRebuild.ret
  | .jmp r => SlotsRebuild.jmp r
  | .jeq r => SlotsRebuild.jeq r
  | .jne r => SlotsRebuild.jne r
  | .hlt => SlotsRebuild.hlt
  | .ldi r imm => SlotsRebuild.ldi r imm
  | .prn r => SlotsRebuild.prn r

theorem Instr.width_eq_one_add_length (i : Instr) : i.width = 1 + i.operandBytes.length := by
  obtain ⟨-, hlen⟩ := slotsRebuild i
  omega

@[simp] theorem Instr.mnemonic_ofSlots (m : Mnemonic) (a b : Byte) : (Instr.ofSlots m a b).mnemonic = m := by
  cases m <;> rfl

/-- Format Z uses neither operand slot (R82). -/
theorem Instr.ofSlots_of_format_z : ∀ {m : Mnemonic}, m.format = .z → ∀ a b a' b' : Byte,
    Instr.ofSlots m a' b' = Instr.ofSlots m a b
  | .ret, _, _, _, _, _ | .hlt, _, _, _, _, _ => rfl

/-- Format R uses the first operand slot only (R82). -/
theorem Instr.ofSlots_of_format_r : ∀ {m : Mnemonic}, m.format = .r → ∀ a b b' : Byte,
    Instr.ofSlots m a b' = Instr.ofSlots m a b
  | .push, _, _, _, _ | .pop, _, _, _, _ | .call, _, _, _, _ | .jmp, _, _, _, _ | .jeq, _, _, _, _ | .jne, _, _, _, _
  | .prn, _, _, _, _ => rfl

/-- Under an injective map the lookup of a mnemonic's opcode byte finds that mnemonic: it finds one, and no other has the
byte (R85, R87). -/
theorem decodeOpcode_of_injective {opc : OpcodeMap} (hinj : Function.Injective opc) (m : Mnemonic) :
    decodeOpcode opc (opc m) = some m := by
  cases h : decodeOpcode opc (opc m) with
  | none => exact absurd rfl (Machine.decodeOpcode_eq_none_iff.mp h m)
  | some m' => rw [hinj (Machine.decodeOpcode_eq_some h)]

theorem decode_of_some {opc : OpcodeMap} {o : Byte} {m : Mnemonic} (h : decodeOpcode opc o = some m) (a b : Byte) :
    decode opc o a b = .instr (Instr.ofSlots m a b) := by
  simp [decode, h]

theorem decode_of_none {opc : OpcodeMap} {o : Byte} (h : decodeOpcode opc o = none) (a b : Byte) :
    decode opc o a b = .unsupported o := by
  simp [decode, h]

/-- An answered instruction is built from the operand slots, for the mnemonic that the lookup found. -/
theorem decode_eq_instr_iff {opc : OpcodeMap} {o a b : Byte} {i : Instr} :
    decode opc o a b = .instr i ↔ decodeOpcode opc o = some i.mnemonic ∧ Instr.ofSlots i.mnemonic a b = i := by
  constructor
  · intro h
    cases hm : decodeOpcode opc o with
    | none => cases (decode_of_none hm a b).symm.trans h
    | some m =>
      cases (decode_of_some hm a b).symm.trans h
      simp
  · rintro ⟨hm, hi⟩
    rw [decode_of_some hm, hi]

end Sys2Proof
end

section
/-! Decoding and the fetch (spec/30_encoding.md). -/

namespace Sys2Proof.Machine

/-- Settles O3: an injective map gives the byte to one mnemonic at most, so the lookup finds that one; the instruction built
for it has its mnemonic, and the width of any instruction counts its operand bytes. -/
theorem decodeLooksUpTheWholeOpcodeByte : Obligations.DecodeLooksUpTheWholeOpcodeByte := by
  unfold Obligations.DecodeLooksUpTheWholeOpcodeByte
  intro opc hinj opcode a b
  refine ⟨?found, ?answered, ?unsupported⟩
  case found =>
    rintro m rfl
    have hmn : (Instr.ofSlots m a b).mnemonic = m := Instr.mnemonic_ofSlots m a b
    exact ⟨_, decode_of_some (decodeOpcode_of_injective hinj m) a b, hmn, Instr.width_eq_one_add_length _,
      congrArg Mnemonic.width hmn⟩
  case answered =>
    intro i h
    obtain ⟨hm, -⟩ := decode_eq_instr_iff.mp h
    exact decodeOpcode_eq_some hm
  case unsupported => exact fun h => decode_of_none (decodeOpcode_eq_none_iff.mpr h) a b

/-- Settles O4: the fetch reads at wrapping sums, and a decoded instruction is built from its operand slots, of which its
format ignores some. -/
theorem fetchReadsThreeBytesAndIgnoresUnusedSlots : Obligations.FetchReadsThreeBytesAndIgnoresUnusedSlots := by
  unfold Obligations.FetchReadsThreeBytesAndIgnoresUnusedSlots
  refine ⟨?fetch, fun opc opcode a b i h => ?slots⟩
  case fetch =>
    intro s p q hp hq
    rw [addr_eq_add_ofNat hp, addr_eq_add_ofNat hq]
    exact ⟨s.fetch_opcode, s.fetch_a, s.fetch_b⟩
  case slots =>
    obtain ⟨hm, hi⟩ := decode_eq_instr_iff.mp h
    exact ⟨fun hz a' b' => decode_eq_instr_iff.mpr ⟨hm, (Instr.ofSlots_of_format_z hz a b a' b').trans hi⟩,
      fun hr b' => decode_eq_instr_iff.mpr ⟨hm, (Instr.ofSlots_of_format_r hr a b b').trans hi⟩⟩

end Sys2Proof.Machine
end

section
/-! SUPPORT. The run state: what a fatal error and an effect leave in it, and which instructions raise nothing (R117, R118,
R197). -/

namespace Sys2Proof.Machine

theorem State.failed_raise (s : State) (c : Cause) : (s.raise c).failed := ⟨_, s.raise_run c⟩

@[simp] theorem pushValue_run (s : State) (value : State → Byte) : (pushValue s value).run = s.run := rfl

/-- The effect of every instruction but HLT leaves the run state as it is. -/
theorem normalEffect_run_of_ne_hlt {i : Instr} {s t : State} (h : normalEffect i s t) (hi : i ≠ .hlt) :
    t.run = s.run := by
  cases i
  case add | sub | mul | cmp => obtain ⟨j, k, -, -, rfl⟩ := h; simp
  case div | mod => obtain ⟨j, k, -, -, -, rfl⟩ := h; simp
  case push | pop | call | jmp | ldi | prn => obtain ⟨j, -, rfl⟩ := h; simp
  case jeq | jne => obtain ⟨-, j, -, rfl⟩ | ⟨-, rfl⟩ := h <;> simp
  case ret => obtain rfl := h; simp
  case hlt => exact absurd rfl hi

/-- All that the body of an instruction can do to the run state: a fatal error, HLT's halt, or nothing. -/
theorem exec_run_cases {i : Instr} {s t : State} (h : exec i s = .next t) :
    (t.failed ∧ ∃ c, raises i s c) ∨ (i = .hlt ∧ t.completed) ∨ (i ≠ .hlt ∧ t.run = s.run) := by
  obtain ⟨c, rfl, hc⟩ | he := exec_cases h
  · exact .inl ⟨s.failed_raise c, c, hc⟩
  · by_cases hi : i = .hlt
    · subst hi
      obtain rfl : t = (s.setRun .halted).advance 1 := he
      exact .inr (.inl ⟨rfl, rfl⟩)
    · exact .inr (.inr ⟨hi, normalEffect_run_of_ne_hlt he hi⟩)

/-- A well-formed instruction that divides by no zero register raises nothing (R197). -/
theorem not_raises_of_wellFormed {i : Instr} {s : State} (hw : i.wellFormed = true)
    (hz : ∀ (a : Byte) (k : RegIdx), i = .div a (regByte k) ∨ i = .mod a (regByte k) → s.reg k ≠ 0x00#8) (c : Cause) :
    ¬ raises i s c := by
  rintro (⟨-, hbad⟩ | ⟨-, j, k, hk, hi⟩)
  · cases hw.symm.trans hbad
  · exact hz (regByte j) k hi hk

theorem step_of_decoded {s : State} {i : Instr} (hr : s.run = .running) (hd : s.decoded = .instr i) :
    step s = exec i s :=
  cycle_of_decode hr hd

end Sys2Proof.Machine
end

section
/-! The fetch-decode-execute loop (spec/40_fetch_decode_execute.md). -/

namespace Sys2Proof.Machine

/-- Settles O43: of the three things a body can do to the run state, only a fatal error and HLT's halt leave `Running`, and
the hypotheses of the progress property rule both out. -/
theorem onlyHaltOrAFaultEndsARun : Obligations.OnlyHaltOrAFaultEndsARun := by
  unfold Obligations.OnlyHaltOrAFaultEndsARun
  refine ⟨?ends, ?progress⟩
  case ends =>
    intro s t hstep hstopped
    obtain ⟨hr, ⟨i, hd, hexec⟩ | ⟨o, -, rfl⟩⟩ := step_cases hstep
    · obtain ⟨hf, -⟩ | ⟨rfl, hc⟩ | ⟨-, hrun⟩ := exec_run_cases hexec
      · exact .inr hf
      · exact .inl ⟨hd, hc⟩
      · exact absurd (hrun.trans hr) hstopped
    · exact .inr (s.failed_raise _)
  case progress =>
    intro s i hr hd hi hw hz
    obtain ⟨t, hexec⟩ := exec_answers_next i s
    refine ⟨t, (step_of_decoded hr hd).trans hexec, ?_⟩
    obtain ⟨-, c, hc⟩ | ⟨hhlt, -⟩ | ⟨-, hrun⟩ := exec_run_cases hexec
    · exact absurd hc (not_raises_of_wellFormed hw hz c)
    · exact absurd hhlt hi
    · exact hrun.trans hr

end Sys2Proof.Machine
end

section
/-! SUPPORT. The ALU's instructions: the body that each runs, what it does when both operand bytes name registers, and the
results of an ALU verb on one value twice (R131 to R140). -/

namespace Sys2Proof.Machine

theorem exec_add (a b : Byte) (s : State) : exec (.add a b) s = .next (arith aluAdd a b s) := rfl
theorem exec_sub (a b : Byte) (s : State) : exec (.sub a b) s = .next (arith aluSub a b s) := rfl
theorem exec_mul (a b : Byte) (s : State) : exec (.mul a b) s = .next (arith aluMul a b s) := rfl
theorem exec_div (a b : Byte) (s : State) : exec (.div a b) s = .next (arithNonzero aluDiv a b s) := rfl
theorem exec_mod (a b : Byte) (s : State) : exec (.mod a b) s = .next (arithNonzero aluMod a b s) := rfl

theorem exec_cmp_regByte (i j : RegIdx) (s : State) :
    exec (.cmp (regByte i) (regByte j)) s = .next ((s.setFlagE (decide (s.reg i = s.reg j))).advance 3) :=
  congrArg Host.Outcome.next (withRegs_regByte i j s _)

theorem arith_regByte (f : Byte → Byte → Byte) (i j : RegIdx) (s : State) :
    arith f (regByte i) (regByte j) s = (s.setReg i (f (s.reg i) (s.reg j))).advance 3 :=
  withRegs_regByte i j s _

@[simp] theorem arith_reg_self (f : Byte → Byte → Byte) (i j : RegIdx) (s : State) :
    (arith f (regByte i) (regByte j) s).reg i = f (s.reg i) (s.reg j) := by
  rw [arith_regByte, State.reg_advance, State.reg_setReg_self]

/-- Writing one register and going on to the next instruction is the frame `onlyWritesReg`. -/
theorem onlyWritesReg_setReg_advance (i : RegIdx) (w : Nat) (s : State) (v : Byte) :
    onlyWritesReg i w s ((s.setReg i v).advance w) :=
  ⟨fun _ hj => State.reg_setReg_of_ne s v hj.symm, rfl, rfl, rfl, rfl, fun _ => rfl⟩

theorem onlyWritesReg_arith (f : Byte → Byte → Byte) (i j : RegIdx) (s : State) :
    onlyWritesReg i 3 s (arith f (regByte i) (regByte j) s) := by
  rw [arith_regByte]
  exact onlyWritesReg_setReg_advance i 3 s _

/-- By a divisor that is not zero, DIV and MOD run the body of the other arithmetic verbs. -/
theorem arithNonzero_regByte_of_ne {s : State} {j : RegIdx} (h : s.reg j ≠ 0#8) (f : Byte → Byte → Byte) (i : RegIdx) :
    arithNonzero f (regByte i) (regByte j) s = arith f (regByte i) (regByte j) s := by
  rw [arith_regByte]
  exact (withRegs_regByte i j s _).trans (if_neg h)

/-- SUB's result as the remainder of the exact difference, which may be negative. -/
theorem aluSub_toNat_cast (x y : Byte) : ((aluSub x y).toNat : Int) = (x.toNat - y.toNat : Int) % 256 := by
  simp only [aluSub, BitVec.toNat_ofInt]
  omega

theorem aluSub_self (x : Byte) : aluSub x x = 0#8 := by
  simp [aluSub]

theorem aluDiv_self {x : Byte} (h : x ≠ 0#8) : aluDiv x x = 1#8 := by
  have hpos : 0 < x.toNat := by bv_omega
  rw [aluDiv, Nat.div_self hpos]

theorem aluMod_self (x : Byte) : aluMod x x = 0#8 := by
  rw [aluMod, Nat.mod_self]

end Sys2Proof.Machine
end

section
/-! SUPPORT. Bodies that neither read nor write memory and emit nothing (R142): a fatal error is one, and so is every
operation over two registers whose effect is one. -/

namespace Sys2Proof.Machine

/-- `f` keeps memory and output, and its registers, flags and `pc` come out the same from any other memory. The run state is
left out: a fault record holds the fetched bytes. -/
def UsesNoMemoryNorOutput (f : State → State) : Prop :=
  ∀ s : State, (f s).mem = s.mem ∧ (f s).out = s.out ∧ ∀ m : Memory,
    (f { s with mem := m }).regs = (f s).regs ∧ (f { s with mem := m }).fl = (f s).fl ∧
      (f { s with mem := m }).pc = (f s).pc

theorem usesNoMemoryNorOutput_raise (c : Cause) : UsesNoMemoryNorOutput fun s => s.raise c :=
  fun _ => ⟨rfl, rfl, fun _ => ⟨rfl, rfl, rfl⟩⟩

/-- Whether a byte names a register depends on the byte alone, and where it names none the operation raises. -/
theorem usesNoMemoryNorOutput_withReg {a : Byte} {body : State → RegIdx → State}
    (h : ∀ i, UsesNoMemoryNorOutput fun s => body s i) : UsesNoMemoryNorOutput fun s => withReg a s (body s) := by
  cases ha : regIdx a with
  | some i => simpa only [withReg_of_some ha] using h i
  | none => simpa only [withReg_of_none ha] using usesNoMemoryNorOutput_raise .badRegisterIndex

theorem usesNoMemoryNorOutput_withRegs {a b : Byte} {body : State → RegIdx → RegIdx → State}
    (h : ∀ i j, UsesNoMemoryNorOutput fun s => body s i j) : UsesNoMemoryNorOutput fun s => withRegs a b s (body s) :=
  usesNoMemoryNorOutput_withReg fun i => usesNoMemoryNorOutput_withReg (h i)

theorem usesNoMemoryNorOutput_setReg_advance (f : Byte → Byte → Byte) (i j : RegIdx) :
    UsesNoMemoryNorOutput fun s => (s.setReg i (f (s.reg i) (s.reg j))).advance 3 :=
  fun _ => ⟨rfl, rfl, fun _ => ⟨rfl, rfl, rfl⟩⟩

theorem usesNoMemoryNorOutput_setFlagE_advance (i j : RegIdx) :
    UsesNoMemoryNorOutput fun s => (s.setFlagE (decide (s.reg i = s.reg j))).advance 3 :=
  fun _ => ⟨rfl, rfl, fun _ => ⟨rfl, rfl, rfl⟩⟩

theorem usesNoMemoryNorOutput_arith (f : Byte → Byte → Byte) (a b : Byte) : UsesNoMemoryNorOutput (arith f a b) :=
  usesNoMemoryNorOutput_withRegs (usesNoMemoryNorOutput_setReg_advance f)

/-- The divisor is a register, so whether it is zero does not depend on memory. -/
theorem usesNoMemoryNorOutput_arithNonzero (f : Byte → Byte → Byte) (a b : Byte) :
    UsesNoMemoryNorOutput (arithNonzero f a b) := by
  refine usesNoMemoryNorOutput_withRegs fun i j s => ?_
  have hmem : ∀ m : Memory, ({ s with mem := m } : State).reg j = s.reg j := fun _ => rfl
  by_cases hz : s.reg j = 0#8
  · simpa only [hmem, if_pos hz] using usesNoMemoryNorOutput_raise .divideByZero s
  · simpa only [hmem, if_neg hz] using usesNoMemoryNorOutput_setReg_advance f i j s

/-- Every ALU instruction runs such a body, whatever its operand bytes. -/
theorem exec_alu_usesNoMemoryNorOutput {i : Instr} (h : i.mnemonic ∈ [Mnemonic.add, .sub, .mul, .div, .mod, .cmp]) :
    ∃ f, UsesNoMemoryNorOutput f ∧ ∀ s, exec i s = .next (f s) := by
  cases i
  case add a b => exact ⟨_, usesNoMemoryNorOutput_arith aluAdd a b, exec_add a b⟩
  case sub a b => exact ⟨_, usesNoMemoryNorOutput_arith aluSub a b, exec_sub a b⟩
  case mul a b => exact ⟨_, usesNoMemoryNorOutput_arith aluMul a b, exec_mul a b⟩
  case div a b => exact ⟨_, usesNoMemoryNorOutput_arithNonzero aluDiv a b, exec_div a b⟩
  case mod a b => exact ⟨_, usesNoMemoryNorOutput_arithNonzero aluMod a b, exec_mod a b⟩
  case cmp a b => exact ⟨_, usesNoMemoryNorOutput_withRegs usesNoMemoryNorOutput_setFlagE_advance, fun _ => rfl⟩
  case push | pop | call | ret | jmp | jeq | jne | hlt | ldi | prn => simp [Instr.mnemonic] at h

end Sys2Proof.Machine
end

section
/-! The ALU (spec/41_alu.md). -/

namespace Sys2Proof.Machine

/-- Settles O22: every ALU instruction runs a body that uses neither memory nor output, here from the two memories. -/
theorem aluInstructionsUseNoMemoryAndNoOutput : Obligations.AluInstructionsUseNoMemoryAndNoOutput := by
  unfold Obligations.AluInstructionsUseNoMemoryAndNoOutput
  intro i hi s m
  obtain ⟨f, hf, hexec⟩ := exec_alu_usesNoMemoryNorOutput hi
  obtain ⟨hmem, hout, hsame⟩ := hf s
  obtain ⟨hmem', hout', -⟩ := hf { s with mem := m }
  exact ⟨_, _, hexec s, hexec _, hmem, hmem', hout, hout', hsame m⟩

/-- Settles O17: the three verbs run one body, which writes its first register only; each result is the exact one
modulo 256. -/
theorem addSubMulWrapAndRaiseNoFlag : Obligations.AddSubMulWrapAndRaiseNoFlag := by
  unfold Obligations.AddSubMulWrapAndRaiseNoFlag
  refine fun i j s => ⟨⟨_, exec_add .., onlyWritesReg_arith .., ?add⟩, ⟨_, exec_sub .., onlyWritesReg_arith .., ?sub⟩,
    ⟨_, exec_mul .., onlyWritesReg_arith .., ?mul⟩⟩
  case add => rw [arith_reg_self, aluAdd_toNat]
  case sub => rw [arith_reg_self, aluSub_toNat_cast]
  case mul => rw [arith_reg_self, aluMul_toNat]

/-- Settles O21: each body hands the ALU the old value of the register twice, and each verb's result on one value twice is
known. -/
theorem sameRegisterTwiceUsesTheOldValue : Obligations.SameRegisterTwiceUsesTheOldValue := by
  unfold Obligations.SameRegisterTwiceUsesTheOldValue
  refine fun i s => ⟨⟨_, exec_add .., ?add⟩, ⟨_, exec_sub .., ?sub⟩, ⟨_, exec_mul .., ?mul⟩, ⟨_, exec_cmp_regByte .., ?cmp⟩,
    fun hz => ⟨⟨_, exec_div .., ?div⟩, ⟨_, exec_mod .., ?mod⟩⟩⟩
  case add => rw [arith_reg_self, aluAdd_toNat, two_mul]
  case sub => rw [arith_reg_self, aluSub_self]
  case mul => rw [arith_reg_self, aluMul_toNat, sq]
  case cmp =>
    calc ((s.setFlagE (decide (s.reg i = s.reg i))).advance 3).flagE
        = decide (s.reg i = s.reg i) := State.flagE_setFlagE ..
      _ = true := decide_eq_true rfl
  case div => rw [arithNonzero_regByte_of_ne hz, arith_reg_self, aluDiv_self hz]
  case mod => rw [arithNonzero_regByte_of_ne hz, arith_reg_self, aluMod_self]

end Sys2Proof.Machine
end

section
/-! SUPPORT. JEQ and JNE, an equation for each branch taken and each not taken (R171, R172). -/

namespace Sys2Proof.Machine

theorem jumpTo_regByte (k : RegIdx) (s : State) : jumpTo (regByte k) s = s.setPc (s.reg k) :=
  withReg_regByte k s _

theorem exec_jeq_of_flagE {s : State} (h : s.flagE = true) (k : RegIdx) :
    exec (.jeq (regByte k)) s = .next (s.setPc (s.reg k)) :=
  congrArg Host.Outcome.next ((if_pos h).trans (jumpTo_regByte k s))

/-- A JEQ that is not taken does not look at its operand byte. -/
theorem exec_jeq_of_not_flagE {s : State} (h : s.flagE = false) (r : Byte) :
    exec (.jeq r) s = .next (s.advance 2) :=
  congrArg Host.Outcome.next (if_neg (ne_true_of_eq_false h))

theorem exec_jne_of_not_flagE {s : State} (h : s.flagE = false) (k : RegIdx) :
    exec (.jne (regByte k)) s = .next (s.setPc (s.reg k)) :=
  congrArg Host.Outcome.next ((if_neg (ne_true_of_eq_false h)).trans (jumpTo_regByte k s))

/-- A JNE that is not taken does not look at its operand byte. -/
theorem exec_jne_of_flagE {s : State} (h : s.flagE = true) (r : Byte) :
    exec (.jne r) s = .next (s.advance 2) :=
  congrArg Host.Outcome.next (if_pos h)

end Sys2Proof.Machine
end

section
/-! Branches (spec/44_branch.md). -/

namespace Sys2Proof.Machine

/-- Settles O32: after CMP, `E` says whether the two registers are equal, and `E` decides which of JEQ and JNE is taken. CMP
itself writes no register, so the target is the one held before it. -/
theorem compareThenBranchInAllFourCases : Obligations.CompareThenBranchInAllFourCases := by
  unfold Obligations.CompareThenBranchInAllFourCases
  intro i j k s
  have hcmp := exec_cmp_regByte i j s
  have hflag : ((s.setFlagE (decide (s.reg i = s.reg j))).advance 3).flagE = decide (s.reg i = s.reg j) :=
    State.flagE_setFlagE ..
  by_cases heq : s.reg i = s.reg j
  · have hE := hflag.trans (decide_eq_true heq)
    exact ⟨_, _, _, hcmp, exec_jeq_of_flagE hE k, exec_jne_of_flagE hE _, fun _ => ⟨hE, rfl, rfl⟩, absurd heq⟩
  · have hE := hflag.trans (decide_eq_false heq)
    exact ⟨_, _, _, hcmp, exec_jeq_of_not_flagE hE _, exec_jne_of_not_flagE hE k, fun h => absurd h heq,
      fun _ => ⟨hE, rfl, rfl⟩⟩

end Sys2Proof.Machine
end

section
/-! SUPPORT. Fatal errors: the record that one leaves, and why a cycle takes one (R190 to R195). -/

namespace Sys2Proof.Machine

/-- The decoder rejects only an opcode byte that the map does not give (R87). -/
theorem ne_of_decode_eq_unsupported {opc : OpcodeMap} {o a b o' : Byte} (h : decode opc o a b = .unsupported o') :
    ∀ m, opc m ≠ o := by
  cases hm : decodeOpcode opc o with
  | none => exact decodeOpcode_eq_none_iff.mp hm
  | some m => cases (decode_of_some hm a b).symm.trans h

/-- An instruction of two registers decodes to the operand bytes that were fetched (R82). -/
theorem slots_of_decode_div_or_mod {opc : OpcodeMap} {o a b x y : Byte}
    (h : decode opc o a b = .instr (.div x y) ∨ decode opc o a b = .instr (.mod x y)) : a = x ∧ b = y := by
  obtain h | h := h
  · exact Instr.div.inj (decode_eq_instr_iff.mp h).2
  · exact Instr.mod.inj (decode_eq_instr_iff.mp h).2

/-- What stands in the record of a fatal error (R194). -/
theorem record_of_raise {s : State} {c : Cause} {r : FaultRecord} (h : (s.raise c).run = .faulted r) :
    r.cause = c ∧ r.pc = s.pc ∧ r.opcode = s.memRead s.pc ∧ r.a = s.memRead (s.pc + 1#8) ∧
      r.b = s.memRead (s.pc + 2#8) := by
  obtain rfl := RunState.faulted.inj h
  exact ⟨rfl, rfl, rfl, rfl, rfl⟩

/-- Where no fatal error is taken, no instruction makes a failed state of one that has not failed. -/
theorem normalEffect_not_failed {i : Instr} {s t : State} (h : normalEffect i s t) (hs : ¬ s.failed) : ¬ t.failed := by
  rintro ⟨r, hr⟩
  by_cases hi : i = .hlt
  · subst hi
    obtain rfl : t = (s.setRun .halted).advance 1 := h
    cases hr
  · exact hs ⟨r, (normalEffect_run_of_ne_hlt h hi).symm.trans hr⟩

/-- A cycle that ends in a fatal error has raised its cause and done nothing else: no map entry has the opcode byte, or the
instruction that was decoded raises the cause. -/
theorem cycle_faulted_cases {opc : OpcodeMap} {s t : State} {r : FaultRecord} (h : cycle opc s = .next t)
    (hf : t.run = .faulted r) :
    t = s.raise r.cause ∧
      ((r.cause = .unsupportedInstruction ∧ ∀ m, opc m ≠ s.memRead s.pc) ∨
        ∃ i, decode opc (s.memRead s.pc) (s.memRead (s.pc + 1#8)) (s.memRead (s.pc + 2#8)) = .instr i ∧
          raises i s r.cause) := by
  obtain ⟨hr, ⟨i, hd, hexec⟩ | ⟨o, hd, rfl⟩⟩ := cycle_cases h
  · obtain ⟨c, rfl, hc⟩ | he := exec_cases hexec
    · obtain ⟨rfl, -⟩ := record_of_raise hf
      exact ⟨rfl, .inr ⟨i, hd, hc⟩⟩
    · have hs : ¬ s.failed := fun ⟨r', hr'⟩ => by cases hr.symm.trans hr'
      exact absurd ⟨r, hf⟩ (normalEffect_not_failed he hs)
  · obtain ⟨hcause, -⟩ := record_of_raise hf
    exact ⟨by rw [hcause], .inl ⟨hcause, ne_of_decode_eq_unsupported hd⟩⟩

/-- The record of a cycle that ends in a fatal error (R194), and that no register is written (R195). -/
theorem cycle_faulted_record {opc : OpcodeMap} {s t : State} {r : FaultRecord} (h : cycle opc s = .next t)
    (hf : t.run = .faulted r) :
    r.pc = s.pc ∧ r.opcode = s.memRead s.pc ∧ r.a = s.memRead (s.pc + 1#8) ∧ r.b = s.memRead (s.pc + 2#8) ∧
      sameRegs s t := by
  obtain ⟨rfl, -⟩ := cycle_faulted_cases h hf
  obtain ⟨-, hpc, hopcode, ha, hb⟩ := record_of_raise hf
  exact ⟨hpc, hopcode, ha, hb, s.reg_raise r.cause⟩

/-- The body shared by DIV and MOD raises DivideByZero when the second register is 0 (R190). -/
theorem arithNonzero_regByte_of_eq_zero {s : State} {j : RegIdx} (h : s.reg j = 0#8) (f : Byte → Byte → Byte)
    (i : RegIdx) :
    arithNonzero f (regByte i) (regByte j) s = s.raise .divideByZero :=
  (withRegs_regByte i j s _).trans (if_pos h)

theorem exec_div_of_eq_zero {s : State} {j : RegIdx} (h : s.reg j = 0#8) (i : RegIdx) :
    exec (.div (regByte i) (regByte j)) s = .next (s.raise .divideByZero) := by
  rw [exec_div, arithNonzero_regByte_of_eq_zero h]

theorem exec_mod_of_eq_zero {s : State} {j : RegIdx} (h : s.reg j = 0#8) (i : RegIdx) :
    exec (.mod (regByte i) (regByte j)) s = .next (s.raise .divideByZero) := by
  rw [exec_mod, arithNonzero_regByte_of_eq_zero h]

end Sys2Proof.Machine
end

section
/-! Exceptions (spec/60_exceptions.md). -/

namespace Sys2Proof.Machine

/-- Settles O45: a body that raises nothing has its effect, which fails no state. -/
theorem wellFormedInstructionsNeverFault : Obligations.WellFormedInstructionsNeverFault := by
  unfold Obligations.WellFormedInstructionsNeverFault
  intro i s hw hs hz
  obtain ⟨t, hexec⟩ := exec_answers_next i s
  refine ⟨t, hexec, ?_⟩
  obtain ⟨c, -, hc⟩ | he := exec_cases hexec
  · exact absurd hc (not_raises_of_wellFormed hw hz c)
  · exact normalEffect_not_failed he hs

/-- Settles O42: the body of no instruction raises UnsupportedInstruction, so the opcode lookup alone decides. -/
theorem unsupportedInstructionIsReportedWithItsAddress : Obligations.UnsupportedInstructionIsReportedWithItsAddress := by
  unfold Obligations.UnsupportedInstructionIsReportedWithItsAddress
  intro opc s hr
  refine ⟨⟨?raised, ?unmapped⟩, ?record⟩
  case raised =>
    rintro ⟨t, r, hcycle, hf, hcause⟩
    obtain ⟨-, ⟨-, hno⟩ | ⟨i, -, hi⟩⟩ := cycle_faulted_cases hcycle hf
    · exact hno
    · rw [hcause] at hi
      obtain ⟨hc, -⟩ | ⟨hc, -⟩ := hi <;> cases hc
  case unmapped =>
    intro hno
    have hd := decode_of_none (decodeOpcode_eq_none_iff.mpr hno) (s.memRead (s.pc + 1#8)) (s.memRead (s.pc + 2#8))
    exact ⟨_, _, cycle_of_unsupported hr hd, s.raise_run _, rfl⟩
  case record =>
    intro t r hcycle hf _
    obtain ⟨hpc, hopcode, -⟩ := cycle_faulted_record hcycle hf
    exact ⟨hopcode, hpc⟩

/-- Settles O41: DivideByZero is raised by the body of a DIV or MOD only, never by the decoder, and the operand bytes of the
record are those the instruction was decoded from. -/
theorem divideByZeroIsRaisedByDivAndModOnly : Obligations.DivideByZeroIsRaisedByDivAndModOnly := by
  unfold Obligations.DivideByZeroIsRaisedByDivAndModOnly
  intro s hr
  refine ⟨⟨?raised, ?zero⟩, ?record⟩
  case raised =>
    rintro ⟨t, r, hstep, hf, hcause⟩
    obtain ⟨-, ⟨hc, -⟩ | ⟨i, hd, hi⟩⟩ := cycle_faulted_cases hstep hf
    · cases hcause.symm.trans hc
    · rw [hcause] at hi
      obtain ⟨hc, -⟩ | ⟨-, j, k, hz, rfl | rfl⟩ := hi
      · cases hc
      · exact ⟨j, k, hz, .inl hd⟩
      · exact ⟨j, k, hz, .inr hd⟩
  case zero =>
    rintro ⟨j, k, hz, hd | hd⟩
    · exact ⟨_, _, (step_of_decoded hr hd).trans (exec_div_of_eq_zero hz j), s.raise_run _, rfl⟩
    · exact ⟨_, _, (step_of_decoded hr hd).trans (exec_mod_of_eq_zero hz j), s.raise_run _, rfl⟩
  case record =>
    intro t r j k hstep hf _ hd
    obtain ⟨hpc, hopcode, ha, hb, hregs⟩ := cycle_faulted_record hstep hf
    obtain ⟨hj, hk⟩ := slots_of_decode_div_or_mod hd
    exact ⟨ha.trans hj, hb.trans hk, hpc, hopcode, hregs⟩

end Sys2Proof.Machine
end

section
/-! SUPPORT. A read after a list of bytes is placed in memory (R51, R52, R55). -/

namespace Sys2Proof.Machine

/-- The byte at each address is chosen by its distance from the start, modulo 256. A list that does not run past all of
memory never comes back to its first cell, so no byte is overwritten by a later one. -/
theorem State.memRead_placeBytes {bytes : List Byte} (s : State) (a : Addr) (h : bytes.length ≤ 256) (d : Addr) :
    (s.placeBytes a bytes).memRead d = bytes[(d - a).toNat]?.getD (s.memRead d) := by
  induction bytes generalizing s a with
  | nil => rfl
  | cons v vs ih =>
    rw [List.length_cons] at h
    have hvs : (s.placeBytes a (v :: vs)).memRead d =
        vs[(d - (a + 1#8)).toNat]?.getD ((s.memWrite a v).memRead d) := ih _ _ (by omega)
    rw [hvs]
    by_cases had : a = d
    · subst had
      have hback : (a - (a + 1#8)).toNat = 255 := by bv_omega
      rw [hback, List.getElem?_eq_none (by omega), State.memRead_memWrite_self, BitVec.sub_self]
      rfl
    · have hnext : (d - a).toNat = (d - (a + 1#8)).toNat + 1 := by bv_omega
      rw [hnext, List.getElem?_cons_succ, State.memRead_memWrite_of_ne s v had]

/-- The loader's bytes start at address 0, so the distance is the address itself (R233). -/
theorem State.memRead_placeBytes_loadBase {bytes : List Byte} (s : State) (h : bytes.length ≤ 256) {k : Nat}
    (hk : k < 256) :
    (s.placeBytes Config.loadBase bytes).memRead (BitVec.ofNat 8 k) =
      bytes[k]?.getD (s.memRead (BitVec.ofNat 8 k)) := by
  have hdist : (BitVec.ofNat 8 k - Config.loadBase).toNat = k := by
    rw [Config.loadBase, BitVec.sub_zero, BitVec.toNat_ofNat, Nat.mod_eq_of_lt hk]
  rw [State.memRead_placeBytes s _ h, hdist]

theorem State.placeBytes_eq_with_mem (s : State) (a : Addr) (bytes : List Byte) :
    s.placeBytes a bytes = { s with mem := (s.placeBytes a bytes).mem } := by
  obtain ⟨hregs, hpc, hfl, hrun, hout⟩ := State.placeBytes_frame bytes s a
  exact State.eq_of_fields rfl hregs hpc hfl hrun hout

end Sys2Proof.Machine
end

section
/-! SUPPORT. Runs of the machine: which states have a next state, and one step more at the end of a run (R117). -/

namespace Sys2Proof.Machine

/-- The three values of the run state (R33): what is not running has completed or failed. -/
theorem State.completed_or_failed_iff {s : State} : s.completed ∨ s.failed ↔ s.run ≠ .running := by
  unfold State.completed State.failed
  cases s.run <;> simp

/-- A running machine steps, whether its bytes decode or not; a stopped one does not (R117). -/
theorem step_answers_next_iff {s : State} : (∃ t, step s = .next t) ↔ s.run = .running := by
  constructor
  · rintro ⟨t, h⟩
    obtain ⟨hr, -⟩ := step_cases h
    exact hr
  · intro hr
    cases hd : s.decoded with
    | instr i =>
      obtain ⟨t, hexec⟩ := exec_answers_next i s
      exact ⟨t, (step_of_decoded hr hd).trans hexec⟩
    | unsupported o => exact ⟨_, cycle_of_unsupported hr hd⟩

theorem run_succ_of_refused {s : State} {r : Refusal} (h : step s = .refused r) (n : Nat) :
    Host.Core.run Sys2Proof.core (n + 1) s = .refused r := by
  have hc : Sys2Proof.core.step s = .refused r := h
  simp only [Host.Core.run, hc]

theorem run_one (s : State) : Host.Core.run Sys2Proof.core 1 s = step s := by
  cases hstep : step s with
  | next u => exact run_succ_of_next hstep 0
  | fault f => exact run_succ_of_fault hstep 0
  | refused r => exact run_succ_of_refused hstep 0

/-- A run that answers a next state has taken its first step. -/
theorem exists_step_of_run_succ {n : Nat} {s t : State} (h : Host.Core.run Sys2Proof.core (n + 1) s = .next t) :
    ∃ u, step s = .next u ∧ Host.Core.run Sys2Proof.core n u = .next t := by
  cases hstep : step s with
  | next u => exact ⟨u, rfl, (run_succ_of_next hstep n).symm.trans h⟩
  | fault f => cases (run_succ_of_fault hstep n).symm.trans h
  | refused r => cases (run_succ_of_refused hstep n).symm.trans h

/-- A run of one step more takes that step from where the run has come. -/
theorem run_succ_of_run_eq_next {n : Nat} {s t : State} (h : Host.Core.run Sys2Proof.core n s = .next t) :
    Host.Core.run Sys2Proof.core (n + 1) s = step t := by
  induction n generalizing s with
  | zero =>
    obtain rfl : s = t := Host.Outcome.next.inj h
    exact run_one s
  | succ n ih =>
    obtain ⟨u, hstep, hrun⟩ := exists_step_of_run_succ h
    rw [run_succ_of_next hstep, ih hrun]

/-- A run that only ever comes to running states comes to one after any number of steps. -/
theorem run_answers_next {s : State}
    (h : ∀ (n : Nat) (t : State), Host.Core.run Sys2Proof.core n s = .next t → t.run = .running) (n : Nat) :
    ∃ t : State, Host.Core.run Sys2Proof.core n s = .next t := by
  induction n with
  | zero => exact ⟨s, rfl⟩
  | succ n ih =>
    obtain ⟨t, ht⟩ := ih
    obtain ⟨u, hu⟩ := step_answers_next_iff.mpr (h n t ht)
    exact ⟨u, (run_succ_of_run_eq_next ht).trans hu⟩

end Sys2Proof.Machine
end

section
/-! Reset and hazards (spec/70_reset_and_hazards.md). -/

namespace Sys2Proof.Machine

/-- Settles O10: run start places the image over the reset state, each read of the result is decided by the length of
the image, and placing bytes touches memory only. -/
theorem loaderPutsByteKAtAddressK : Obligations.LoaderPutsByteKAtAddressK := by
  unfold Obligations.LoaderPutsByteKAtAddressK
  intro image hfits
  refine ⟨_, runStart_of_fits hfits, fun k hk => ?loaded, fun k hk hlt => ?beyond, State.placeBytes_eq_with_mem .., ?pc⟩
  case loaded =>
    rw [State.memRead_placeBytes_loadBase _ hfits (by omega), List.getElem?_eq_getElem hk, Option.getD_some]
  case beyond => rw [State.memRead_placeBytes_loadBase _ hfits hlt, List.getElem?_eq_none hk, Option.getD_none]
  case pc =>
    obtain ⟨-, hpc, -⟩ := State.placeBytes_frame image State.reset Config.loadBase
    exact hpc

/-- Settles O46: a run that never reaches a stopped state steps on for ever, and where it reaches one, the next step
does not exist. -/
theorem runningMachineAlwaysSteps : Obligations.RunningMachineAlwaysSteps := by
  unfold Obligations.RunningMachineAlwaysSteps
  refine ⟨fun s => step_answers_next_iff, fun s _ => ⟨?stops, ?finite⟩⟩
  case stops =>
    rintro ⟨n, hn⟩
    by_contra hnever
    have hrunning : ∀ (k : Nat) (t : State), Host.Core.run Sys2Proof.core k s = .next t → t.run = .running :=
      fun k t ht => not_not.mp fun hr => hnever ⟨k, t, ht, State.completed_or_failed_iff.mpr hr⟩
    obtain ⟨t, ht⟩ := run_answers_next hrunning n
    exact hn t ht
  case finite =>
    rintro ⟨n, t, ht, hstopped⟩
    refine ⟨n + 1, fun u hu => State.completed_or_failed_iff.mp hstopped ?_⟩
    exact step_answers_next_iff.mp ⟨u, (run_succ_of_run_eq_next ht).symm.trans hu⟩

end Sys2Proof.Machine
end

section
/-! SUPPORT. Encodings against the three fetched bytes (R80 to R87), and a step of each run state (R117). -/

namespace Sys2Proof

theorem decodeBytes_encode_append {opc : OpcodeMap} (hinj : Function.Injective opc) (i : Instr) (rest : List Byte) :
    decodeBytes opc (encode opc i ++ rest) = .instr i := by
  obtain ⟨hslots, -⟩ := slotsRebuild i
  exact decode_eq_instr_iff.mpr ⟨decodeOpcode_of_injective hinj i.mnemonic, hslots rest⟩

/-- The bytes an instruction was built from, as many as its width: its opcode byte and the slots that its format uses. -/
theorem Instr.cons_operandBytes_ofSlots (m : Mnemonic) (o a b : Byte) :
    o :: (Instr.ofSlots m a b).operandBytes = [o, a, b].take m.width := by
  cases m <;> rfl

@[simp] theorem length_encode (opc : OpcodeMap) (i : Instr) : (encode opc i).length = i.width := by
  rw [Instr.width_eq_one_add_length, Nat.add_comm]
  rfl

theorem Mnemonic.width_le (m : Mnemonic) : m.width ≤ 3 := by
  cases m <;> decide

/-- Three bytes that begin with the encoding of an instruction decode to it, under an injective map. -/
theorem decode_of_encode_eq_take {opc : OpcodeMap} (hinj : Function.Injective opc) {o a b : Byte} {i : Instr}
    (h : encode opc i = [o, a, b].take i.width) : decode opc o a b = .instr i := by
  calc decode opc o a b
      = decodeBytes opc ([o, a, b].take i.width ++ [o, a, b].drop i.width) := by rw [List.take_append_drop]; rfl
    _ = .instr i := by rw [← h, decodeBytes_encode_append hinj]

theorem decodeTableWord_eq_some_iff {nbits w : Nat} {i : Instr} :
    decodeTableWord nbits w = some i ↔ decodeBytes defaultOpc (tableBytes nbits w) = .instr i := by
  unfold decodeTableWord
  cases decodeBytes defaultOpc (tableBytes nbits w) <;> simp

end Sys2Proof

namespace Sys2Proof.Machine

/-- In a halted machine no step exists (R33). -/
theorem step_of_halted {s : State} (h : s.run = .halted) : step s = .fault .noStepHalted := by
  simp [step, cycle, h]

/-- In a machine stopped by a fatal error no step exists, and the record is answered as it stands (R201). -/
theorem step_of_faulted {s : State} {r : FaultRecord} (h : s.run = .faulted r) : step s = .fault (.noStepFaulted r) := by
  simp [step, cycle, h]

/-- The three bytes that a cycle fetches, by their distance from `pc`. -/
theorem State.getElem?_fetchedBytes (s : State) {k : Nat} (hk : k < 3) :
    [s.memRead s.pc, s.memRead (s.pc + 1#8), s.memRead (s.pc + 2#8)][k]? =
      some (s.memRead (s.pc + BitVec.ofNat 8 k)) := by
  interval_cases k <;> simp

/-- The encoding of an instruction, stored from `pc` on, is the beginning of the bytes that the cycle fetches. -/
theorem encode_eq_take_of_stored {opc : OpcodeMap} {s : State} {i : Instr}
    (h : ∀ k, k < i.width → s.memRead (s.pc + BitVec.ofNat 8 k) = (encode opc i).getD k 0#8) :
    encode opc i = [s.memRead s.pc, s.memRead (s.pc + 1#8), s.memRead (s.pc + 2#8)].take i.width := by
  have hw : i.width ≤ 3 := i.mnemonic.width_le
  refine List.ext_getElem? fun k => ?_
  by_cases hk : k < i.width
  · rw [List.getElem?_take_of_lt hk, State.getElem?_fetchedBytes s (by omega), h k hk, List.getD_eq_getElem?_getD,
      List.getElem?_eq_getElem (by simpa using hk), Option.getD_some]
  · rw [List.getElem?_eq_none (by simpa using hk), List.getElem?_eq_none (by simp; omega)]

/-- After `withFetchBytes` each of three bytes stands where the fetch reads it. -/
theorem State.decoded_withFetchBytes (s : State) (o a b : Byte) :
    (s.withFetchBytes [o, a, b]).decoded = decode defaultOpc o a b := by
  obtain ⟨-, hpc, -⟩ := s.placeBytes_frame [o, a, b] s.pc
  have hread := s.memRead_placeBytes (bytes := [o, a, b]) s.pc (by simp)
  simp [State.decoded, State.withFetchBytes, hpc, hread]

/-- Storing three bytes leaves every cell but three as it was. -/
theorem State.memRead_withFetchBytes_of_ne (s : State) (o a b : Byte) {d : Addr} (h0 : d ≠ s.pc) (h1 : d ≠ s.pc + 1#8)
    (h2 : d ≠ s.pc + 2#8) : (s.withFetchBytes [o, a, b]).memRead d = s.memRead d := by
  have hdist : [o, a, b].length ≤ (d - s.pc).toNat := by
    simp only [List.length_cons, List.length_nil]
    bv_omega
  calc (s.withFetchBytes [o, a, b]).memRead d
      = [o, a, b][(d - s.pc).toNat]?.getD (s.memRead d) := s.memRead_placeBytes s.pc (by simp) d
    _ = s.memRead d := by rw [List.getElem?_eq_none hdist, Option.getD_none]

end Sys2Proof.Machine
end

section
/-! Encoding, and the step of the instruction that stands at `pc` (spec/30_encoding.md, spec/40_fetch_decode_execute.md). -/

namespace Sys2Proof.Machine

/-- Settles O1: the lookup of the opcode byte finds the mnemonic, and the operand bytes in the slots rebuild the
instruction. -/
theorem decodeOfEncodeIsTheInstruction : Obligations.DecodeOfEncodeIsTheInstruction := by
  unfold Obligations.DecodeOfEncodeIsTheInstruction
  exact fun opc hinj => decodeBytes_encode_append hinj

/-- Settles O2: the lookup found the opcode byte itself, and the operand bytes are the slots that the format uses. -/
theorem encodeOfDecodeIsTheFetchedBytes : Obligations.EncodeOfDecodeIsTheFetchedBytes := by
  unfold Obligations.EncodeOfDecodeIsTheFetchedBytes
  intro opc opcode a b i h
  obtain ⟨hm, hi⟩ := decode_eq_instr_iff.mp h
  calc encode opc i
      = opcode :: (Instr.ofSlots i.mnemonic a b).operandBytes := by rw [hi, encode, decodeOpcode_eq_some hm]
    _ = [opcode, a, b].take i.width := Instr.cons_operandBytes_ofSlots ..

/-- Settles O7: the stored encoding is the beginning of the three fetched bytes, so they decode to the instruction. -/
theorem storedEncodingRunsUnderAnyOpcodeMap : Obligations.StoredEncodingRunsUnderAnyOpcodeMap := by
  unfold Obligations.StoredEncodingRunsUnderAnyOpcodeMap
  intro opc hinj s i hr hstored
  exact cycle_of_decode hr (decode_of_encode_eq_take hinj (encode_eq_take_of_stored hstored))

/-- Settles O8: the fetch reads the three placed bytes, and placing them sets the machine running and touches their cells
only. -/
theorem placedWordIsWhatTheStepRuns : Obligations.PlacedWordIsWhatTheStepRuns := by
  unfold Obligations.PlacedWordIsWhatTheStepRuns
  intro s nbits w i h
  have hd : (s.withFetchWord nbits w).decoded = .instr i :=
    (State.decoded_withFetchBytes ..).trans (decodeTableWord_eq_some_iff.mp h)
  obtain ⟨hregs, hpc, hfl, -, hout⟩ := s.placeBytes_frame (tableBytes nbits w) s.pc
  exact ⟨step_of_decoded rfl hd, hregs, hpc, hfl, hout, fun _ => s.memRead_withFetchBytes_of_ne _ _ _⟩

/-- Settles O5: each word is decoded in full. -/
theorem sampleWordsDecode : Obligations.SampleWordsDecode := by
  unfold Obligations.SampleWordsDecode
  decide

/-- Settles O6: a running machine decodes the three bytes at `pc`, and a stopped one has no step. -/
theorem stepRunsTheDecodedInstruction : Obligations.StepRunsTheDecodedInstruction := by
  unfold Obligations.StepRunsTheDecodedInstruction
  exact fun s => ⟨fun hr _ hd => cycle_of_decode hr hd, fun hr _ hd => cycle_of_unsupported hr hd, step_of_halted,
    fun _ => step_of_faulted⟩

/-- Settles O47: the first step of the run does not exist. -/
theorem stoppedMachineStaysStopped : Obligations.StoppedMachineStaysStopped := by
  unfold Obligations.StoppedMachineStaysStopped
  exact fun s n =>
    ⟨fun h => run_succ_of_fault (step_of_halted h) n, fun r h => run_succ_of_fault (step_of_faulted h) n⟩

end Sys2Proof.Machine
end

section
/-! SUPPORT. The canonical form of memory is one form (R50): the entries of a canonical list are its cells that do not hold
`MEM_FILL`. -/

namespace Sys2Proof.Machine

/-- An address that is not listed reads as `MEM_FILL`, so one that reads otherwise is listed, with what it reads as. -/
theorem Memory.mem_of_read_eq {m : Memory} {a : Nat} {v : Byte} (h : Memory.read m a = v) (hv : v ≠ Config.memFill) :
    (a, v) ∈ m := by
  induction m with
  | nil => exact absurd h.symm hv
  | cons c m ih =>
    obtain ⟨k, w⟩ := c
    by_cases hk : k = a
    · obtain rfl : w = v := (if_pos hk).symm.trans h
      rw [hk]
      exact List.mem_cons_self
    · exact List.mem_cons_of_mem _ (ih ((if_neg hk).symm.trans h))

/-- In a list of rising addresses the entry of an address is the one that is read. -/
theorem Memory.read_of_mem {m : Memory} (hm : m.Pairwise fun c d => c.1 < d.1) {c : Host.Cell} (hc : c ∈ m) :
    Memory.read m c.1 = c.2 := by
  induction m with
  | nil => cases hc
  | cons d m ih =>
    obtain ⟨hlt, hm⟩ := List.pairwise_cons.mp hm
    obtain rfl | hc := List.mem_cons.mp hc
    · exact if_pos rfl
    · exact (if_neg (hlt c hc).ne).trans (ih hm hc)

/-- What the entries of a canonical memory are, in terms of reads alone. -/
theorem Memory.mem_iff_of_wf {m : Memory} (hm : Memory.wf m) {c : Host.Cell} :
    c ∈ m ↔ c.1 < Config.memSize ∧ c.2 ≠ Config.memFill ∧ Memory.read m c.1 = c.2 := by
  obtain ⟨hrising, hcells⟩ := hm
  constructor
  · intro hc
    obtain ⟨hsize, hfill⟩ := hcells c hc
    exact ⟨hsize, hfill, Memory.read_of_mem hrising hc⟩
  · rintro ⟨-, hfill, hread⟩
    exact Memory.mem_of_read_eq hread hfill

/-- Rising addresses make two lists with the same entries the same list. -/
theorem Memory.eq_of_mem_iff {m n : Memory} (hm : m.Pairwise fun c d => c.1 < d.1)
    (hn : n.Pairwise fun c d => c.1 < d.1) (h : ∀ c, c ∈ m ↔ c ∈ n) : m = n := by
  have hnodup : ∀ {l : Memory}, (l.Pairwise fun c d => c.1 < d.1) → l.Nodup :=
    fun hl => hl.imp fun hlt heq => hlt.ne (congrArg Prod.fst heq)
  exact ((List.perm_ext_iff_of_nodup (hnodup hm) (hnodup hn)).mpr h).eq_of_pairwise
    (fun _ _ _ _ hlt hgt => absurd hlt hgt.asymm) hm hn

end Sys2Proof.Machine
end

section
/-! SUPPORT. The state at run start, and the invariant where the run state holds no record. -/

namespace Sys2Proof.Machine

/-- An image that memory cannot hold is refused (R234). -/
theorem runStart_of_too_long {image : List Byte} (h : 256 < image.length) :
    runStart image = .refused (.imageTooLong image.length) :=
  if_neg (Nat.not_le.mpr h)

theorem eq_of_runStart {image : List Byte} {s : State} (h : runStart image = .next s) :
    s = State.reset.placeBytes Config.loadBase image := by
  by_cases hfits : image.length ≤ 256
  · exact (Host.Outcome.next.inj ((runStart_of_fits hfits).symm.trans h)).symm
  · cases (runStart_of_too_long (Nat.not_le.mp hfits)).symm.trans h

@[simp] theorem State.memRead_reset (a : Addr) : State.reset.memRead a = 0x00#8 := rfl

theorem State.recordFits_of_not_failed {s : State} (h : ¬ s.failed) : s.recordFits = true := by
  unfold State.recordFits
  split
  case h_1 r hr => exact absurd ⟨r, hr⟩ h
  case h_2 => rfl

/-- The record of a fatal error names the instruction at `pc` (R194); one cause is never raised (R192). -/
theorem State.recordFits_raise (s : State) {c : Cause} (h : c ≠ .unsupportedALUOperation) :
    (s.raise c).recordFits = true := by
  simp [State.recordFits, h]

theorem State.not_failed_of_running {s : State} (h : s.run = .running) : ¬ s.failed := by
  rintro ⟨r, hr⟩
  cases h.symm.trans hr

end Sys2Proof.Machine
end

section
/-! SUPPORT. Said once for every instruction: what its effect can change in each field of the state. -/

namespace Sys2Proof.Machine

theorem exists_pushValue_mem (s : State) (value : State → Byte) :
    ∃ v, (pushValue s value).mem = (s.memWrite (s.reg Config.sp - 1#8) v).mem :=
  ⟨_, by rw [pushValue_spec]; rfl⟩

/-- PUSH and CALL store one byte in the cell below the stack pointer; no other instruction writes memory (R53). -/
theorem normalEffect_mem {i : Instr} {s t : State} (h : normalEffect i s t) :
    t.mem = s.mem ∨ ((∃ r, i = .push r ∨ i = .call r) ∧ ∃ v, t.mem = (s.memWrite (s.reg 7 - 1#8) v).mem) := by
  cases i
  case push r =>
    obtain ⟨j, -, rfl⟩ := h
    exact .inr ⟨⟨r, .inl rfl⟩, exists_pushValue_mem s fun u => u.reg j⟩
  case call r =>
    obtain ⟨j, -, rfl⟩ := h
    exact .inr ⟨⟨r, .inr rfl⟩, exists_pushValue_mem s fun _ => s.pc + 2#8⟩
  case add | sub | mul | cmp => obtain ⟨j, k, -, -, rfl⟩ := h; exact .inl rfl
  case div | mod => obtain ⟨j, k, -, -, -, rfl⟩ := h; exact .inl rfl
  case pop | jmp | ldi | prn => obtain ⟨j, -, rfl⟩ := h; exact .inl rfl
  case jeq | jne => obtain ⟨-, j, -, rfl⟩ | ⟨-, rfl⟩ := h <;> exact .inl rfl
  case ret | hlt => obtain rfl := h; exact .inl rfl

/-- CMP writes `E`; no other instruction writes the flags (R29). -/
theorem normalEffect_fl {i : Instr} {s t : State} (h : normalEffect i s t) :
    t.fl = s.fl ∨ ((∃ a b, i = .cmp a b) ∧ ∃ e, t.fl = (s.setFlagE e).fl) := by
  cases i
  case cmp a b =>
    obtain ⟨j, k, -, -, rfl⟩ := h
    exact .inr ⟨⟨a, b, rfl⟩, _, rfl⟩
  case add | sub | mul => obtain ⟨j, k, -, -, rfl⟩ := h; exact .inl rfl
  case div | mod => obtain ⟨j, k, -, -, -, rfl⟩ := h; exact .inl rfl
  case push | pop | call | jmp | ldi | prn => obtain ⟨j, -, rfl⟩ := h; exact .inl rfl
  case jeq | jne => obtain ⟨-, j, -, rfl⟩ | ⟨-, rfl⟩ := h <;> exact .inl rfl
  case ret | hlt => obtain rfl := h; exact .inl rfl

/-- PRN appends the value of its register; no other instruction emits (R35). -/
theorem normalEffect_out {i : Instr} {s t : State} (h : normalEffect i s t) :
    t.out = s.out ∨ ∃ j : RegIdx, i = .prn (regByte j) ∧ t.out = s.out ++ [s.reg j] := by
  cases i
  case prn r =>
    obtain ⟨j, rfl, rfl⟩ := h
    exact .inr ⟨j, rfl, rfl⟩
  case add | sub | mul | cmp => obtain ⟨j, k, -, -, rfl⟩ := h; exact .inl rfl
  case div | mod => obtain ⟨j, k, -, -, -, rfl⟩ := h; exact .inl rfl
  case push | pop | call | jmp | ldi => obtain ⟨j, -, rfl⟩ := h; exact .inl rfl
  case jeq | jne => obtain ⟨-, j, -, rfl⟩ | ⟨-, rfl⟩ := h <;> exact .inl rfl
  case ret | hlt => obtain rfl := h; exact .inl rfl

/-- A register that a write changes is the one written. -/
theorem State.eq_of_reg_setReg_ne {s : State} {i k : RegIdx} {v : Byte} (h : (s.setReg i v).reg k ≠ s.reg k) : k = i :=
  not_not.mp fun hk => h (State.reg_setReg_of_ne s v (Ne.symm hk))

/-- Every register that an effect changes is in R23's `writes` column for the instruction. -/
theorem normalEffect_reg {i : Instr} {s t : State} {k : RegIdx} (h : normalEffect i s t) (hk : t.reg k ≠ s.reg k) :
    mayWriteReg i k := by
  cases i
  case add | sub | mul =>
    obtain ⟨j, l, rfl, -, rfl⟩ := h
    exact congrArg regByte (State.eq_of_reg_setReg_ne hk).symm
  case div | mod =>
    obtain ⟨j, l, rfl, -, -, rfl⟩ := h
    exact congrArg regByte (State.eq_of_reg_setReg_ne hk).symm
  case ldi =>
    obtain ⟨j, rfl, rfl⟩ := h
    exact congrArg regByte (State.eq_of_reg_setReg_ne hk).symm
  case pop =>
    obtain ⟨j, rfl, rfl⟩ := h
    by_cases h7 : k = 7
    · exact .inr h7
    · rw [State.reg_advance, State.reg_setReg_of_ne _ _ (Ne.symm h7)] at hk
      exact .inl (congrArg regByte (State.eq_of_reg_setReg_ne hk).symm)
  case push | call =>
    obtain ⟨j, -, rfl⟩ := h
    exact State.eq_of_reg_setReg_ne hk
  case ret =>
    obtain rfl := h
    exact State.eq_of_reg_setReg_ne hk
  case cmp => obtain ⟨j, l, -, -, rfl⟩ := h; exact hk rfl
  case jmp | prn => obtain ⟨j, -, rfl⟩ := h; exact hk rfl
  case jeq | jne => obtain ⟨-, j, -, rfl⟩ | ⟨-, rfl⟩ := h <;> exact hk rfl
  case hlt => obtain rfl := h; exact hk rfl

/-- Where `pc` is not redirected it goes on by the width of the instruction (R114). -/
theorem normalEffect_pc {i : Instr} {s t : State} (h : normalEffect i s t)
    (hi : i.mnemonic ∉ [Mnemonic.call, .ret, .jmp]) (hjeq : i.mnemonic = .jeq → s.flagE = false)
    (hjne : i.mnemonic = .jne → s.flagE = true) : t.pc = s.pc + BitVec.ofNat 8 i.width := by
  cases i
  case add | sub | mul | cmp => obtain ⟨j, k, -, -, rfl⟩ := h; rfl
  case div | mod => obtain ⟨j, k, -, -, -, rfl⟩ := h; rfl
  case push | pop | ldi | prn => obtain ⟨j, -, rfl⟩ := h; rfl
  case jeq =>
    obtain ⟨hE, -⟩ | ⟨-, rfl⟩ := h
    · cases hE.symm.trans (hjeq rfl)
    · rfl
  case jne =>
    obtain ⟨hE, -⟩ | ⟨-, rfl⟩ := h
    · cases hE.symm.trans (hjne rfl)
    · rfl
  case hlt => obtain rfl := h; rfl
  case call | ret | jmp => simp [Instr.mnemonic] at hi

/-- All that a step can do: it takes a fatal error, of one of three causes, or the decoded instruction has its effect. -/
theorem step_effect_cases {s t : State} (h : step s = .next t) :
    s.run = .running ∧ ((∃ c, c ≠ .unsupportedALUOperation ∧ t = s.raise c) ∨
      ∃ i, s.decoded = .instr i ∧ normalEffect i s t) := by
  obtain ⟨hr, ⟨i, hd, hexec⟩ | ⟨o, -, rfl⟩⟩ := step_cases h
  · obtain ⟨c, rfl, ⟨rfl, -⟩ | ⟨rfl, -⟩⟩ | he := exec_cases hexec
    · exact ⟨hr, .inl ⟨_, by decide, rfl⟩⟩
    · exact ⟨hr, .inl ⟨_, by decide, rfl⟩⟩
    · exact ⟨hr, .inr ⟨i, hd, he⟩⟩
  · exact ⟨hr, .inl ⟨_, by decide, rfl⟩⟩

theorem normalEffect_wf {i : Instr} {s t : State} (h : normalEffect i s t) (hs : Memory.wf s.mem) : Memory.wf t.mem := by
  obtain hm | ⟨-, v, hm⟩ := normalEffect_mem h
  · rwa [hm]
  · rw [hm]
    exact State.memWrite_wf _ v hs

theorem normalEffect_reservedBits {i : Instr} {s t : State} (h : normalEffect i s t) :
    reservedBits t.fl = reservedBits s.fl := by
  obtain hf | ⟨-, e, hf⟩ := normalEffect_fl h
  · rw [hf]
  · rw [hf, State.setFlagE_reserved]

end Sys2Proof.Machine
end

section
/-! Memory, run start and the invariant (spec/20_memory.md, spec/10_state.md). -/

namespace Sys2Proof.Machine

/-- Settles O15: reads alone say which entries a canonical memory has. -/
theorem canonicalMemoriesThatReadAlikeAreEqual : Obligations.CanonicalMemoriesThatReadAlikeAreEqual := by
  unfold Obligations.CanonicalMemoriesThatReadAlikeAreEqual
  intro m n hm hn hread
  have hsame : ∀ k, k < Config.memSize → Memory.read m k = Memory.read n k := fun k hk => hread ⟨k, hk⟩
  refine Memory.eq_of_mem_iff hm.1 hn.1 fun c => ?_
  rw [Memory.mem_iff_of_wf hm, Memory.mem_iff_of_wf hn]
  exact and_congr_right fun hc => by rw [hsame c.1 hc]

/-- Settles O11: no byte of the image is at such an address, and placing bytes touches memory only. -/
theorem launchStateBeyondTheImage : Obligations.LaunchStateBeyondTheImage := by
  unfold Obligations.LaunchStateBeyondTheImage
  refine ⟨fun image hfits => ⟨_, runStart_of_fits hfits, fun k hk hlt => ?beyond, ?fields⟩,
    fun _ => runStart_of_too_long⟩
  case beyond =>
    rw [State.memRead_placeBytes_loadBase _ hfits hlt, List.getElem?_eq_none hk, Option.getD_none, State.memRead_reset]
  case fields =>
    obtain ⟨-, -, hfl, hrun, hout⟩ := State.placeBytes_frame image State.reset Config.loadBase
    exact ⟨hfl, hout, hrun⟩

/-- Settles O12: placing bytes keeps the canonical form, and everything else is as at reset, where nothing has failed. -/
theorem launchStatesMeetTheInvariant : Obligations.LaunchStatesMeetTheInvariant := by
  unfold Obligations.LaunchStatesMeetTheInvariant
  have hlaunch : ∀ image : List Byte, (State.reset.placeBytes Config.loadBase image).inv := fun image => by
    obtain ⟨-, -, hfl, hrun, -⟩ := State.placeBytes_frame image State.reset Config.loadBase
    exact ⟨State.placeBytes_wf image _ _ Memory.wf_nil, by rw [hfl]; rfl,
      State.recordFits_of_not_failed (State.not_failed_of_running hrun)⟩
  refine ⟨hlaunch [], rfl, fun image s h => ?_⟩
  rw [eq_of_runStart h]
  exact hlaunch image

/-- Settles O13: a fatal error writes a record that fits and nothing else, and the effect of an instruction keeps the
canonical form and the reserved bits and fails no running machine. -/
theorem stepKeepsTheInvariant : Obligations.StepKeepsTheInvariant := by
  unfold Obligations.StepKeepsTheInvariant
  rintro s t ⟨hwf, hreserved, -⟩ hstep
  obtain ⟨hr, ⟨c, hc, rfl⟩ | ⟨i, -, he⟩⟩ := step_effect_cases hstep
  · exact ⟨hwf, hreserved, s.recordFits_raise hc⟩
  · exact ⟨normalEffect_wf he hwf, (normalEffect_reservedBits he).trans hreserved,
      State.recordFits_of_not_failed (normalEffect_not_failed he (State.not_failed_of_running hr))⟩

end Sys2Proof.Machine
end

section
/-! SUPPORT. Bodies in two states that differ only where the bodies do not look, said once for every instruction and any such
relation of states (R29, R35). -/

namespace Sys2Proof.Machine

/-- States related by `R` agree in memory, registers and `pc`, and every named update of both keeps them related. -/
structure AgreesWhereRead (R : State → State → Prop) : Prop where
  mem : ∀ {s u}, R s u → u.mem = s.mem
  regs : ∀ {s u}, R s u → u.regs = s.regs
  pc : ∀ {s u}, R s u → u.pc = s.pc
  memWrite : ∀ {s u}, R s u → ∀ a v, R (s.memWrite a v) (u.memWrite a v)
  setReg : ∀ {s u}, R s u → ∀ i v, R (s.setReg i v) (u.setReg i v)
  setPc : ∀ {s u}, R s u → ∀ a, R (s.setPc a) (u.setPc a)
  setFlagE : ∀ {s u}, R s u → ∀ e, R (s.setFlagE e) (u.setFlagE e)
  setRun : ∀ {s u}, R s u → ∀ r, R (s.setRun r) (u.setRun r)
  emit : ∀ {s u}, R s u → ∀ v, R (s.emit v) (u.emit v)

section
variable {R : State → State → Prop} (hR : AgreesWhereRead R) {s u : State} (h : R s u)
include hR h

theorem AgreesWhereRead.reg (i : RegIdx) : u.reg i = s.reg i := by
  rw [State.reg, hR.regs h, State.reg]

theorem AgreesWhereRead.memRead (a : Addr) : u.memRead a = s.memRead a := by
  rw [State.memRead, hR.mem h, State.memRead]

theorem AgreesWhereRead.advance (w : Nat) : R (s.advance w) (u.advance w) := by
  rw [State.advance, State.advance, hR.pc h]
  exact hR.setPc h _

theorem AgreesWhereRead.raise (c : Cause) : R (s.raise c) (u.raise c) := by
  simp only [State.raise, State.fetch, hR.pc h, hR.memRead h]
  exact hR.setRun h _

/-- Whether a byte names a register depends on the byte alone. -/
theorem AgreesWhereRead.withReg (a : Byte) {body body' : RegIdx → State} (hbody : ∀ i, R (body i) (body' i)) :
    R (withReg a s body) (withReg a u body') := by
  cases ha : regIdx a with
  | some i => simpa only [withReg_of_some ha] using hbody i
  | none => simpa only [withReg_of_none ha] using hR.raise h .badRegisterIndex

theorem AgreesWhereRead.withRegs (a b : Byte) {body body' : RegIdx → RegIdx → State}
    (hbody : ∀ i j, R (body i j) (body' i j)) : R (withRegs a b s body) (withRegs a b u body') :=
  hR.withReg h a fun i => hR.withReg h b (hbody i)

theorem AgreesWhereRead.arithAdvance (f : Byte → Byte → Byte) (i j : RegIdx) :
    R ((s.setReg i (f (s.reg i) (s.reg j))).advance 3) ((u.setReg i (f (u.reg i) (u.reg j))).advance 3) := by
  rw [hR.reg h, hR.reg h]
  exact hR.advance (hR.setReg h _ _) 3

theorem AgreesWhereRead.arith (f : Byte → Byte → Byte) (a b : Byte) : R (arith f a b s) (arith f a b u) :=
  hR.withRegs h a b (hR.arithAdvance h f)

theorem AgreesWhereRead.arithNonzero (f : Byte → Byte → Byte) (a b : Byte) :
    R (arithNonzero f a b s) (arithNonzero f a b u) := by
  refine hR.withRegs h a b fun i j => ?_
  by_cases hz : s.reg j = 0#8
  · simpa only [hR.reg h j, if_pos hz] using hR.raise h .divideByZero
  · simpa only [hR.reg h j, if_neg hz] using hR.arithAdvance h f i j

theorem AgreesWhereRead.pushValue {value value' : State → Byte} (hv : ∀ {x y}, R x y → value' y = value x) :
    R (pushValue s value) (pushValue u value') := by
  have hdec := hR.setReg h Config.sp (s.reg Config.sp - 1#8)
  rw [pushValue_spec, pushValue_spec, hR.reg h, hv hdec]
  exact hR.memWrite hdec _ _

theorem AgreesWhereRead.jumpTo (a : Byte) : R (jumpTo a s) (jumpTo a u) :=
  hR.withReg h a fun i => by
    rw [hR.reg h]
    exact hR.setPc h _

/-- Every body takes related states to related states, unless it is JEQ or JNE and the flags differ. -/
theorem AgreesWhereRead.exec (i : Instr) (hfl : i.mnemonic ≠ .jeq ∧ i.mnemonic ≠ .jne ∨ u.fl = s.fl) :
    ∃ t v, exec i s = .next t ∧ exec i u = .next v ∧ R t v := by
  cases i <;> refine ⟨_, _, rfl, rfl, ?_⟩
  case add | sub | mul => exact hR.arith h _ _ _
  case div | mod => exact hR.arithNonzero h _ _ _
  case cmp =>
    refine hR.withRegs h _ _ fun i j => ?_
    rw [hR.reg h, hR.reg h]
    exact hR.advance (hR.setFlagE h _) 3
  case push => exact hR.withReg h _ fun i => hR.advance (hR.pushValue h fun hxy => hR.reg hxy i) 2
  case pop =>
    refine hR.withReg h _ fun i => ?_
    have hpop := hR.setReg h i (s.memRead (s.reg Config.sp))
    rw [hR.reg h, hR.memRead h]
    dsimp only
    rw [hR.reg hpop]
    exact hR.advance (hR.setReg hpop _ _) 2
  case call =>
    refine hR.withReg h _ fun i => ?_
    have hpush := hR.pushValue h (value := fun _ => s.pc + 2#8) (value' := fun _ => u.pc + 2#8) fun _ => by rw [hR.pc h]
    dsimp only
    rw [hR.reg hpush]
    exact hR.setPc hpush _
  case ret =>
    have hjump := hR.setPc h (s.memRead (s.reg Config.sp))
    rw [hR.reg h, hR.memRead h, hR.reg hjump]
    exact hR.setReg hjump _ _
  case jmp => exact hR.jumpTo h _
  case jeq =>
    have hE : u.flagE = s.flagE := congrArg (BitVec.getLsbD · 0) (hfl.resolve_left fun hn => hn.1 rfl)
    rw [hE]
    split
    · exact hR.jumpTo h _
    · exact hR.advance h 2
  case jne =>
    have hE : u.flagE = s.flagE := congrArg (BitVec.getLsbD · 0) (hfl.resolve_left fun hn => hn.2 rfl)
    rw [hE]
    split
    · exact hR.advance h 2
    · exact hR.jumpTo h _
  case hlt => exact hR.advance (hR.setRun h _) 1
  case ldi => exact hR.withReg h _ fun i => hR.advance (hR.setReg h _ _) 3
  case prn =>
    refine hR.withReg h _ fun i => ?_
    rw [hR.reg h]
    exact hR.advance (hR.emit h _) 2

end

/-- HLT uses no register byte and no divisor, so it raises nothing. -/
theorem ne_hlt_of_raises {i : Instr} {s : State} {c : Cause} (h : raises i s c) : i ≠ .hlt := by
  rintro rfl
  obtain ⟨-, hbad⟩ | ⟨-, j, k, -, hi | hi⟩ := h
  · cases hbad
  · cases hi
  · cases hi

/-- `u` is `s` but for the flags. -/
def sameButFlags (s u : State) : Prop := ∃ f, u = { s with fl := f }

/-- `u` is `s` with the values `before` emitted before its own. -/
def withEarlierOutput (before : List Byte) (s u : State) : Prop := u = { s with out := before ++ s.out }

theorem agreesWhereRead_sameButFlags : AgreesWhereRead sameButFlags where
  mem := by rintro s _ ⟨f, rfl⟩; rfl
  regs := by rintro s _ ⟨f, rfl⟩; rfl
  pc := by rintro s _ ⟨f, rfl⟩; rfl
  memWrite := by rintro s _ ⟨f, rfl⟩ a v; exact ⟨_, rfl⟩
  setReg := by rintro s _ ⟨f, rfl⟩ i v; exact ⟨_, rfl⟩
  setPc := by rintro s _ ⟨f, rfl⟩ a; exact ⟨_, rfl⟩
  setFlagE := by rintro s _ ⟨f, rfl⟩ e; exact ⟨_, rfl⟩
  setRun := by rintro s _ ⟨f, rfl⟩ r; exact ⟨_, rfl⟩
  emit := by rintro s _ ⟨f, rfl⟩ v; exact ⟨_, rfl⟩

theorem agreesWhereRead_withEarlierOutput (before : List Byte) : AgreesWhereRead (withEarlierOutput before) where
  mem := by rintro s _ rfl; rfl
  regs := by rintro s _ rfl; rfl
  pc := by rintro s _ rfl; rfl
  memWrite := by rintro s _ rfl a v; rfl
  setReg := by rintro s _ rfl i v; rfl
  setPc := by rintro s _ rfl a; rfl
  setFlagE := by rintro s _ rfl e; rfl
  setRun := by rintro s _ rfl r; rfl
  emit := by
    rintro s _ rfl v
    exact State.eq_of_fields rfl rfl rfl rfl rfl (List.append_assoc ..)

end Sys2Proof.Machine
end

section
/-! Rules about all instructions (spec/10_state.md, spec/20_memory.md, spec/40_fetch_decode_execute.md). -/

namespace Sys2Proof.Machine

/-- Settles O44: of the three things a body can do to the run state, only HLT's is to halt. -/
theorem onlyHaltCompletesARun : Obligations.OnlyHaltCompletesARun := by
  unfold Obligations.OnlyHaltCompletesARun
  intro s t hstep
  obtain ⟨hr, ⟨i, hd, hexec⟩ | ⟨o, hd, rfl⟩⟩ := step_cases hstep
  · have hdec : s.decoded = .instr .hlt ↔ i = .hlt := by rw [State.decoded, hd, DecodeResult.instr.injEq]
    rw [hdec]
    obtain ⟨⟨r, hf⟩, c, hc⟩ | ⟨rfl, hdone⟩ | ⟨hi, hrun⟩ := exec_run_cases hexec
    · exact iff_of_false (fun hdone => by cases hf.symm.trans hdone) (ne_hlt_of_raises hc)
    · exact iff_of_true hdone rfl
    · refine iff_of_false (fun hdone => ?_) hi
      cases (hrun.trans hr).symm.trans hdone
  · refine iff_of_false (fun hdone => ?_) fun h => ?_
    · cases hdone
    · cases hd.symm.trans h

/-- Settles O48: the effect of CMP is the one that writes flags, and a body other than JEQ's and JNE's does not tell apart
two states that differ in the flags only. -/
theorem onlyCompareWritesAndOnlyBranchesReadFlags : Obligations.OnlyCompareWritesAndOnlyBranchesReadFlags := by
  unfold Obligations.OnlyCompareWritesAndOnlyBranchesReadFlags
  refine ⟨?writes, ?reads⟩
  case writes =>
    intro s t hstep
    obtain ⟨-, ⟨c, -, rfl⟩ | ⟨i, hd, he⟩⟩ := step_effect_cases hstep
    · exact ⟨rfl, fun hne => absurd rfl hne⟩
    · refine ⟨normalEffect_reservedBits he, fun hne => ?_⟩
      obtain heq | ⟨⟨a, b, rfl⟩, -⟩ := normalEffect_fl he
      · exact absurd heq hne
      · exact ⟨a, b, hd⟩
  case reads =>
    intro i s f hjeq hjne
    obtain ⟨t, u, ht, hu, g, rfl⟩ :=
      agreesWhereRead_sameButFlags.exec (u := { s with fl := f }) ⟨f, rfl⟩ i (.inl ⟨hjeq, hjne⟩)
    exact ⟨t, _, ht, hu, rfl, rfl, rfl, rfl, rfl⟩

/-- Settles O49: PUSH and CALL write one cell, and a fatal error and every other effect none. -/
theorem onlyPushAndCallWriteMemory : Obligations.OnlyPushAndCallWriteMemory := by
  unfold Obligations.OnlyPushAndCallWriteMemory
  intro s t a hstep hne
  obtain ⟨-, ⟨c, -, rfl⟩ | ⟨i, hd, he⟩⟩ := step_effect_cases hstep
  · exact absurd rfl hne
  · obtain hmem | ⟨⟨r, hi⟩, v, hmem⟩ := normalEffect_mem he
    · exact absurd (congrArg (Memory.read · a.toNat) hmem) hne
    · refine ⟨not_not.mp fun ha => hne ?_, r, by rwa [hd, DecodeResult.instr.injEq, DecodeResult.instr.injEq]⟩
      calc t.memRead a
          = (s.memWrite (s.reg 7 - 1#8) v).memRead a := congrArg (Memory.read · a.toNat) hmem
        _ = s.memRead a := s.sameMemoryOutside_memWrite _ v a ha

/-- Settles O50: a fatal error writes no register, and an effect only those listed. -/
theorem onlyListedRegistersChange : Obligations.OnlyListedRegistersChange := by
  unfold Obligations.OnlyListedRegistersChange
  intro s t k hstep hne
  obtain ⟨-, ⟨c, -, rfl⟩ | ⟨i, hd, he⟩⟩ := step_effect_cases hstep
  · exact absurd rfl hne
  · exact ⟨i, hd, normalEffect_reg he hne⟩

/-- Settles O51: a fatal error emits nothing, and of the effects only PRN's emits. -/
theorem outputGrowsOnlyByPrint : Obligations.OutputGrowsOnlyByPrint := by
  unfold Obligations.OutputGrowsOnlyByPrint
  intro s t hstep
  obtain ⟨-, ⟨c, -, rfl⟩ | ⟨i, hd, he⟩⟩ := step_effect_cases hstep
  · exact .inl rfl
  · exact (normalEffect_out he).imp id fun ⟨j, hi, hout⟩ => ⟨j, hi ▸ hd, hout⟩

/-- Settles O52: the fetch does not look at the output, and neither does the body of any instruction. -/
theorem nothingReadsTheOutput : Obligations.NothingReadsTheOutput := by
  unfold Obligations.NothingReadsTheOutput
  intro opc s t before hcycle
  obtain ⟨hr, ⟨i, hd, hexec⟩ | ⟨o, hd, rfl⟩⟩ := cycle_cases hcycle
  · obtain ⟨t', v, ht, hv, rfl⟩ :=
      (agreesWhereRead_withEarlierOutput before).exec (s := s) rfl i (.inr rfl)
    obtain rfl := Host.Outcome.next.inj (ht.symm.trans hexec)
    exact (cycle_of_decode (s := { s with out := before ++ s.out }) hr hd).trans hv
  · exact cycle_of_unsupported hr hd

/-- Settles O53: a step that does not fail is the effect of the decoded instruction, which moves `pc` on by the width. -/
theorem sequentialInstructionsAdvanceByTheirWidth : Obligations.SequentialInstructionsAdvanceByTheirWidth := by
  unfold Obligations.SequentialInstructionsAdvanceByTheirWidth
  intro s t i hstep hd hok hi hjeq hjne
  obtain ⟨-, ⟨c, -, rfl⟩ | ⟨i', hd', he⟩⟩ := step_effect_cases hstep
  · exact absurd (s.failed_raise c) hok
  · obtain rfl := DecodeResult.instr.inj (hd.symm.trans hd')
    rw [normalEffect_pc he hi hjeq hjne]
    exact byte_toNat_add_ofNat ..

end Sys2Proof.Machine
end

section
/-! SUPPORT. The wrapping results of ADD, SUB and MUL as operations of `BitVec 8`, and the flags that CMP leaves (R131 to
R137). -/

namespace Sys2Proof.Machine

theorem aluAdd_eq_add (x y : Byte) : aluAdd x y = x + y := by
  apply BitVec.eq_of_toNat_eq
  rw [aluAdd_toNat, BitVec.toNat_add]

theorem aluSub_eq_sub (x y : Byte) : aluSub x y = x - y := by
  apply BitVec.eq_of_toNat_eq
  rw [aluSub_toNat, BitVec.toNat_sub]
  have hy := y.isLt
  omega

theorem aluMul_eq_mul (x y : Byte) : aluMul x y = x * y := by
  apply BitVec.eq_of_toNat_eq
  rw [aluMul_toNat, BitVec.toNat_mul]

/-- Quotient and remainder of one division (R139). -/
theorem aluDiv_mul_add_aluMod (x y : Byte) : (aluDiv x y).toNat * y.toNat + (aluMod x y).toNat = x.toNat := by
  rw [aluDiv_toNat, aluMod_toNat, Nat.div_add_mod']

/-- Bits 7:1 of `fl` are read back as they were (R136). -/
theorem State.getLsbD_setFlagE_of_pos (s : State) (e : Bool) {k : Nat} (hk : 1 ≤ k) :
    (s.setFlagE e).fl.getLsbD k = s.fl.getLsbD k := by
  have hbit : ∀ f : Byte, 1 ≤ k → k < 8 → (reservedBits f).getLsbD k = f.getLsbD k := by
    intro f h1 h8
    interval_cases k <;> simp [reservedBits]
  by_cases h8 : k < 8
  · rw [← hbit _ hk h8, State.setFlagE_reserved, hbit _ hk h8]
  · rw [BitVec.getLsbD_of_ge _ _ (by omega), BitVec.getLsbD_of_ge _ _ (by omega)]

end Sys2Proof.Machine
end

section
/-! The ALU's results (spec/41_alu.md). -/

namespace Sys2Proof.Machine

/-- Settles O18: by a divisor that is not zero both verbs write their register only, with the quotient and the remainder of
one division. -/
theorem divModGiveQuotientAndRemainder : Obligations.DivModGiveQuotientAndRemainder := by
  unfold Obligations.DivModGiveQuotientAndRemainder
  intro i j s hz
  have hpos : 0 < (s.reg j).toNat := by bv_omega
  refine ⟨_, _, exec_div .., ?divFrame, exec_mod .., ?modFrame, ?sum, ?less, ?le⟩ <;>
    simp only [arithNonzero_regByte_of_ne hz, arith_reg_self]
  case divFrame | modFrame => exact onlyWritesReg_arith ..
  case sum => exact (aluDiv_mul_add_aluMod ..).symm
  case less =>
    rw [aluMod_toNat]
    exact Nat.mod_lt _ hpos
  case le =>
    rw [aluDiv_toNat]
    exact Nat.div_le_self ..

/-- Settles O19: the zero divisor is the one thing that the shared body raises DivideByZero for. -/
theorem divModByZeroStopTheMachine : Obligations.DivModByZeroStopTheMachine := by
  unfold Obligations.DivModByZeroStopTheMachine
  exact fun i j s hz => ⟨exec_div_of_eq_zero hz i, exec_mod_of_eq_zero hz i⟩

/-- Settles O20: CMP writes `E` and goes on, and `E` is read back. -/
theorem compareSetsOnlyTheEqualFlag : Obligations.CompareSetsOnlyTheEqualFlag := by
  unfold Obligations.CompareSetsOnlyTheEqualFlag
  intro i j s
  refine ⟨_, exec_cmp_regByte i j s, ?equal, fun k hk => s.getLsbD_setFlagE_of_pos _ hk, fun _ => rfl, rfl, rfl, rfl,
    fun _ => rfl⟩
  have hE : ((s.setFlagE (decide (s.reg i = s.reg j))).advance 3).flagE = decide (s.reg i = s.reg j) :=
    State.flagE_setFlagE ..
  exact (Bool.eq_iff_iff.mp hE).trans decide_eq_true_iff

/-- Settles O23: each result is the wrapping operation, which reads alike in two's complement. -/
theorem addSubMulServeTwosComplement : Obligations.AddSubMulServeTwosComplement := by
  unfold Obligations.AddSubMulServeTwosComplement
  refine fun i j s => ⟨⟨_, exec_add .., ?add⟩, ⟨_, exec_sub .., ?sub⟩, ⟨_, exec_mul .., ?mul⟩⟩
  case add =>
    rw [arith_reg_self, aluAdd_eq_add]
    exact BitVec.toInt_add ..
  case sub =>
    rw [arith_reg_self, aluSub_eq_sub]
    exact BitVec.toInt_sub
  case mul =>
    rw [arith_reg_self, aluMul_eq_mul]
    exact BitVec.toInt_mul ..

end Sys2Proof.Machine
end

section
/-! SUPPORT. What the stack operation of PUSH and CALL leaves in each register and in its cell, and the effects of RET, JMP
and PRN on registers named by their operand bytes. -/

namespace Sys2Proof.Machine

theorem pushValue_reg (s : State) (value : State → Byte) (j : RegIdx) :
    (pushValue s value).reg j = if j = Config.sp then s.reg Config.sp - 1#8 else s.reg j := by
  simp only [pushValue_spec, State.reg_memWrite, State.reg_setReg, eq_comm]

/-- The stack operation writes the stack pointer and the cell that it then names. -/
theorem pushValue_frame (s : State) (value : State → Byte) :
    (pushValue s value).reg Config.sp = s.reg Config.sp - 1#8 ∧ sameRegsOutside Config.sp s (pushValue s value) ∧
      sameMemoryOutside (s.reg Config.sp - 1#8) s (pushValue s value) :=
  ⟨pushValue_reg_sp s value, fun j hj => (pushValue_reg s value j).trans (if_neg hj),
    pushValue_sameMemoryOutside s value⟩

theorem pushValue_memRead_sp (s : State) (value : State → Byte) :
    (pushValue s value).memRead (s.reg Config.sp - 1#8) = value (s.setReg Config.sp (s.reg Config.sp - 1#8)) := by
  rw [pushValue_spec, State.memRead_memWrite_self]

/-- PUSH stores the value that its register has after the decrement (R150, R152). -/
theorem pushValue_reg_memRead_sp (s : State) (i : RegIdx) :
    (pushValue s fun t => t.reg i).memRead (s.reg Config.sp - 1#8) =
      if i = Config.sp then s.reg Config.sp - 1#8 else s.reg i := by
  simp only [pushValue_memRead_sp, State.reg_setReg, eq_comm]

theorem exec_ret (s : State) :
    exec .ret s = .next ((s.setPc (s.memRead (s.reg Config.sp))).setReg Config.sp (s.reg Config.sp + 1#8)) := rfl

theorem exec_hlt (s : State) : exec .hlt s = .next ((s.setRun .halted).advance 1) := rfl

theorem exec_jmp_regByte (i : RegIdx) (s : State) : exec (.jmp (regByte i)) s = .next (s.setPc (s.reg i)) :=
  congrArg Host.Outcome.next (jumpTo_regByte i s)

theorem exec_prn_regByte (i : RegIdx) (s : State) :
    exec (.prn (regByte i)) s = .next ((s.emit (s.reg i)).advance 2) :=
  congrArg Host.Outcome.next (withReg_regByte i s _)

theorem onlyMovesPc_setPc (s : State) (a : Addr) : onlyMovesPc s (s.setPc a) :=
  ⟨fun _ => rfl, rfl, rfl, rfl, fun _ => rfl⟩

end Sys2Proof.Machine
end

section
/-! Stack, call and return (spec/42_stack.md, spec/43_call_return.md). -/

namespace Sys2Proof.Machine

/-- Settles O24: PUSH is the stack operation, with the value that the register has after the decrement. -/
theorem pushStoresAtTheDecrementedStackPointer : Obligations.PushStoresAtTheDecrementedStackPointer := by
  unfold Obligations.PushStoresAtTheDecrementedStackPointer
  intro i s
  obtain ⟨hsp, hregs, hmem⟩ := pushValue_frame s fun t => t.reg i
  exact ⟨_, exec_push_regByte i s, hsp, hregs, pushValue_reg_memRead_sp s i, hmem, rfl, rfl, rfl, rfl⟩

/-- Settles O25: POP writes its register and then increments the stack pointer, which is that register for POP R7. -/
theorem popReadsTheStackTop : Obligations.PopReadsTheStackTop := by
  unfold Obligations.PopReadsTheStackTop
  intro i s
  refine ⟨_, exec_pop_regByte i s, fun hi => ⟨?value, ?sp⟩, ?popSp, fun k hki hk7 => ?others, fun _ => rfl,
    rfl, rfl, rfl, rfl⟩
  case value => rw [State.reg_advance, State.reg_setReg_of_ne _ _ hi.symm, State.reg_setReg_self]
  case sp => rw [State.reg_advance, State.reg_setReg_self, State.reg_setReg_of_ne _ _ hi]
  case popSp =>
    rintro rfl
    rw [State.reg_advance, State.reg_setReg_self, State.reg_setReg_self]
  case others => rw [State.reg_advance, State.reg_setReg_of_ne _ _ hk7.symm, State.reg_setReg_of_ne _ _ hki.symm]

/-- Settles O26: POP reads the cell that PUSH has written, and its increment undoes PUSH's decrement. -/
theorem pushThenPopMovesTheValue : Obligations.PushThenPopMovesTheValue := by
  unfold Obligations.PushThenPopMovesTheValue
  intro i j s hi hj
  obtain ⟨t, hpush, hsp, hregs, hcell, -, hpc, -⟩ := pushStoresAtTheDecrementedStackPointer i s
  obtain ⟨u, hpop, hvalue, -, hothers, -, hpc', -⟩ := popReadsTheStackTop j t
  obtain ⟨hvalue, hsp'⟩ := hvalue hj
  refine ⟨t, u, hpush, hpop, ?value, fun k hk => ?others, ?pc⟩
  case value => rw [hvalue, hsp, hcell, if_neg hi]
  case others =>
    by_cases h7 : k = 7
    · rw [h7, hsp', hsp, BitVec.sub_add_cancel]
    · rw [hothers k hk h7, hregs k h7]
  case pc =>
    rw [hpc', hpc, BitVec.add_assoc]
    rfl

/-- Settles O27: CALL is the stack operation, with the address after it, and then the jump. -/
theorem callPushesTheReturnAddressAndJumps : Obligations.CallPushesTheReturnAddressAndJumps := by
  unfold Obligations.CallPushesTheReturnAddressAndJumps
  intro i s
  obtain ⟨hsp, hregs, hmem⟩ := pushValue_frame s fun _ => s.pc + 2#8
  refine ⟨_, exec_call_regByte i s, hsp, hregs, ?cell, hmem, pushValue_reg .., rfl, rfl, rfl⟩
  rw [State.memRead_setPc, pushValue_memRead_sp]
  exact byte_toNat_add_ofNat s.pc 2

/-- Settles O28: RET reads the cell at the stack pointer into `pc` and increments the stack pointer. -/
theorem returnPopsTheProgramCounter : Obligations.ReturnPopsTheProgramCounter := by
  unfold Obligations.ReturnPopsTheProgramCounter
  intro s
  refine ⟨_, exec_ret s, rfl, ?sp, fun k hk => State.reg_setReg_of_ne _ _ hk.symm, fun _ => rfl, rfl, rfl, rfl⟩
  rw [State.reg_setReg_self]
  exact byte_toNat_add_ofNat (s.reg Config.sp) 1

/-- Settles O29: RET reads the cell that CALL has written, and its increment undoes CALL's decrement. -/
theorem returnResumesAfterTheCall : Obligations.ReturnResumesAfterTheCall := by
  unfold Obligations.ReturnResumesAfterTheCall
  intro i s
  obtain ⟨t, hcall, hsp, -, hcell, -⟩ := callPushesTheReturnAddressAndJumps i s
  rw [← hsp] at hcell
  refine ⟨t, hcall, hcell, fun u husp hucell => ⟨_, exec_ret u, ?pc, ?sp⟩⟩
  case pc => exact (congrArg BitVec.toNat hucell).trans hcell
  case sp => rw [State.reg_setReg_self, husp, hsp, BitVec.sub_add_cancel]

end Sys2Proof.Machine
end

section
/-! Branches, halt, load and print (spec/44_branch.md, spec/45_halt_load_print.md). -/

namespace Sys2Proof.Machine

/-- Settles O30: JMP sets `pc` alone. -/
theorem jumpGoesToTheRegister : Obligations.JumpGoesToTheRegister := by
  unfold Obligations.JumpGoesToTheRegister
  exact fun i s => ⟨_, exec_jmp_regByte i s, rfl, onlyMovesPc_setPc ..⟩

/-- Settles O31: `E` decides between the jump and the advance, each of which sets `pc` alone. -/
theorem conditionalBranchesReadTheEqualFlag : Obligations.ConditionalBranchesReadTheEqualFlag := by
  unfold Obligations.ConditionalBranchesReadTheEqualFlag
  refine fun i r s => ⟨fun hE => ⟨?jeqTaken, ?jneNotTaken⟩, fun hE => ⟨?jneTaken, ?jeqNotTaken⟩⟩
  case jeqTaken => exact ⟨_, exec_jeq_of_flagE hE i, rfl, onlyMovesPc_setPc ..⟩
  case jneNotTaken => exact ⟨_, exec_jne_of_flagE hE r, rfl, onlyMovesPc_setPc ..⟩
  case jneTaken => exact ⟨_, exec_jne_of_not_flagE hE i, rfl, onlyMovesPc_setPc ..⟩
  case jeqNotTaken => exact ⟨_, exec_jeq_of_not_flagE hE r, rfl, onlyMovesPc_setPc ..⟩

/-- Settles O33: HLT sets the run state and goes on by one. -/
theorem haltStopsOnePastItself : Obligations.HaltStopsOnePastItself := by
  unfold Obligations.HaltStopsOnePastItself
  exact fun s => ⟨_, exec_hlt s, rfl, byte_toNat_add_ofNat s.pc 1, fun _ => rfl, rfl, rfl, fun _ => rfl⟩

/-- Settles O34: LDI writes one register and goes on by its width. -/
theorem loadImmediateWritesTheByte : Obligations.LoadImmediateWritesTheByte := by
  unfold Obligations.LoadImmediateWritesTheByte
  exact fun i imm s => ⟨_, exec_ldi_regByte i imm s, State.reg_setReg_self .., onlyWritesReg_setReg_advance ..⟩

/-- Settles O35: PRN emits the register's value and goes on by its width. -/
theorem printAppendsTheRegister : Obligations.PrintAppendsTheRegister := by
  unfold Obligations.PrintAppendsTheRegister
  exact fun i s => ⟨_, exec_prn_regByte i s, rfl, fun _ => rfl, rfl, rfl, rfl, fun _ => rfl⟩

/-- Settles O36: PRN reads back the register that LDI has written. -/
theorem loadThenPrintOutputsTheLoadedValue : Obligations.LoadThenPrintOutputsTheLoadedValue := by
  unfold Obligations.LoadThenPrintOutputsTheLoadedValue
  intro i imm s
  obtain ⟨t, hldi, hreg, -, hpc, -, -, hout, -⟩ := loadImmediateWritesTheByte i imm s
  obtain ⟨u, hprn, hout', -, hpc', -⟩ := printAppendsTheRegister i t
  refine ⟨t, u, hldi, hprn, by rw [hout', hout, hreg], ?pc⟩
  rw [hpc', hpc, BitVec.add_assoc]
  rfl

end Sys2Proof.Machine
end

section
/-! SUPPORT. An instruction with a register byte above 7: it raises nothing but BadRegisterIndex, and it has an effect only as
a branch not taken (R83, R193, R199). -/

namespace Sys2Proof.Machine

theorem regByte_toNat_lt (i : RegIdx) : (regByte i).toNat < 8 := by
  revert i; decide

/-- DIV and MOD look at the divisor only after both register bytes (R199). -/
theorem eq_badRegisterIndex_of_raises {i : Instr} {s : State} {c : Cause} (h : raises i s c)
    (hw : i.wellFormed = false) : c = .badRegisterIndex := by
  obtain ⟨hc, -⟩ | ⟨-, j, k, -, rfl | rfl⟩ := h
  · exact hc
  · simp [Instr.wellFormed, Instr.registerBytes, regByte_toNat_lt] at hw
  · simp [Instr.wellFormed, Instr.registerBytes, regByte_toNat_lt] at hw

/-- An effect needs every register byte to be good, but for the byte of a branch not taken (R193). -/
theorem wellFormed_of_normalEffect {i : Instr} {s t : State} (h : normalEffect i s t)
    (hjeq : i.mnemonic = .jeq → s.flagE = true) (hjne : i.mnemonic = .jne → s.flagE = false) :
    i.wellFormed = true := by
  cases i
  case add | sub | mul | cmp | div | mod =>
    obtain ⟨j, k, rfl, rfl, -⟩ := h
    simp [Instr.wellFormed, Instr.registerBytes, regByte_toNat_lt]
  case push | pop | call | jmp | ldi | prn =>
    obtain ⟨j, rfl, -⟩ := h
    simp [Instr.wellFormed, Instr.registerBytes, regByte_toNat_lt]
  case jeq =>
    obtain ⟨-, j, rfl, -⟩ | ⟨hE, -⟩ := h
    · simp [Instr.wellFormed, Instr.registerBytes, regByte_toNat_lt]
    · cases hE.symm.trans (hjeq rfl)
  case jne =>
    obtain ⟨-, j, rfl, -⟩ | ⟨hE, -⟩ := h
    · simp [Instr.wellFormed, Instr.registerBytes, regByte_toNat_lt]
    · cases hE.symm.trans (hjne rfl)
  case ret | hlt => rfl

end Sys2Proof.Machine
end

section
/-! Fatal errors (spec/60_exceptions.md). -/

namespace Sys2Proof.Machine

/-- Settles O37: the body has no effect, and of what it can raise BadRegisterIndex alone is left. -/
theorem badRegisterByteStopsTheMachine : Obligations.BadRegisterByteStopsTheMachine := by
  unfold Obligations.BadRegisterByteStopsTheMachine
  intro i s hw hjeq hjne
  obtain ⟨t, hexec⟩ := exec_answers_next i s
  obtain ⟨c, rfl, hc⟩ | he := exec_cases hexec
  · obtain rfl := eq_badRegisterIndex_of_raises hc hw
    exact hexec
  · cases hw.symm.trans (wellFormed_of_normalEffect he hjeq hjne)

/-- Settles O38: the lookup finds no mnemonic, so the bytes do not decode. -/
theorem unsupportedOpcodeStopsTheMachine : Obligations.UnsupportedOpcodeStopsTheMachine := by
  unfold Obligations.UnsupportedOpcodeStopsTheMachine
  exact fun opc s hr hno => cycle_of_unsupported hr (decode_of_none (decodeOpcode_eq_none_iff.mpr hno) _ _)

/-- Settles O39: a step that ends in a fatal error has raised it and done nothing else. -/
theorem faultChangesOnlyTheRunState : Obligations.FaultChangesOnlyTheRunState := by
  unfold Obligations.FaultChangesOnlyTheRunState
  intro s t r hstep hf
  obtain ⟨ht, -⟩ := cycle_faulted_cases hstep hf
  obtain ⟨hpc, hopcode, ha, hb, -⟩ := cycle_faulted_record hstep hf
  refine ⟨?_, hpc, hopcode, ha, hb⟩
  rw [← hf, ht]
  rfl

/-- Settles O40: the decoder raises for an unmapped byte, and a body for one of the two causes of `raises`. -/
theorem faultCausesAreExact : Obligations.FaultCausesAreExact := by
  unfold Obligations.FaultCausesAreExact
  intro s t r hstep hf
  obtain ⟨-, -, ha, hb, -⟩ := cycle_faulted_record hstep hf
  obtain ⟨-, hno | ⟨i, hd, ⟨hc, hw⟩ | ⟨hc, j, k, hz, hi⟩⟩⟩ := cycle_faulted_cases hstep hf
  · exact .inl hno
  · exact .inr (.inl ⟨hc, i, hd, hw⟩)
  · have hdec : s.decoded = .instr (.div (regByte j) (regByte k)) ∨
        s.decoded = .instr (.mod (regByte j) (regByte k)) := by
      rwa [State.decoded, hd, DecodeResult.instr.injEq, DecodeResult.instr.injEq]
    obtain ⟨hj, hk⟩ := slots_of_decode_div_or_mod hdec
    exact .inr (.inr ⟨hc, j, k, hz, ha.trans hj, hb.trans hk, hdec⟩)

end Sys2Proof.Machine
end

section
/-! SUPPORT. The source's loop (R115): its handlers followed by the uniform increment, as the advances and jumps of the
instruction rules. -/

namespace Sys2Proof.Machine

/-- The uniform increment after a handler that began in `s`, or the fatal error that the handler met. -/
def afterHandler (s : State) : Except Cause State → State
  | .ok t => t.setPc (t.pc + 1#8)
  | .error c => s.raise c

theorem sourceBody_eq_afterHandler (i : Instr) (s : State) : sourceBody i s = afterHandler s (sourceHandler i s) := by
  unfold sourceBody afterHandler
  cases sourceHandler i s <;> rfl

/-- The handler's operand lookup is that of the instruction rules. -/
theorem afterHandler_indexOrCause (s : State) (a : Byte) (f : RegIdx → Except Cause State) :
    afterHandler s (indexOrCause a >>= f) = withReg a s fun i => afterHandler s (f i) := by
  cases ha : regIdx a with
  | some i => rw [withReg_of_some ha, indexOrCause, ha]; rfl
  | none => rw [withReg_of_none ha, indexOrCause, ha]; rfl

theorem afterHandler_throw (s : State) (c : Cause) : afterHandler s (throw c) = s.raise c := rfl

/-- A handler that adds its number of operand bytes leaves the loop one byte further (R115). -/
theorem afterHandler_addOperandCount (s t : State) (n : Nat) :
    afterHandler s (pure (addOperandCount t n)) = t.advance (n + 1) := by
  have hpc : t.pc + BitVec.ofNat 8 n + 1#8 = t.pc + BitVec.ofNat 8 (n + 1) := by
    rw [BitVec.add_assoc, BitVec.ofNat_add]
  exact congrArg t.setPc hpc

/-- The offset of a handler that redirects is undone by the increment (R115). -/
theorem afterHandler_redirectTo (s t : State) (target : Addr) :
    afterHandler s (pure (redirectTo t target)) = t.setPc target :=
  congrArg t.setPc (BitVec.sub_add_cancel target 1#8)

end Sys2Proof.Machine
end

section
/-! A store seen by the next fetch, and the source's loop (spec/20_memory.md, spec/40_fetch_decode_execute.md). -/

namespace Sys2Proof.Machine

/-- Settles O54: the next fetch reads at `pc + 2`, which is the cell that PUSH has written. -/
theorem pushedByteIsFetchedAsTheNextOpcode : Obligations.PushedByteIsFetchedAsTheNextOpcode := by
  unfold Obligations.PushedByteIsFetchedAsTheNextOpcode
  intro i s hr hd hi hcell
  obtain ⟨t, hpush, -, -, hread, -, hpc, -, hrun, -⟩ := pushStoresAtTheDecrementedStackPointer i s
  refine ⟨t, (step_of_decoded hr hd).trans hpush, hrun.trans hr, ?_⟩
  rw [State.fetch_opcode, hpc, ← hcell, hread, if_neg hi]

/-- Settles O55: handler by handler, the increment completes the operand count to the width, or undoes the offset of the
target. -/
theorem netEffectIsTheUniformIncrementLoop : Obligations.NetEffectIsTheUniformIncrementLoop := by
  unfold Obligations.NetEffectIsTheUniformIncrementLoop
  intro i s
  rw [sourceBody_eq_afterHandler]
  cases i <;> refine congrArg Host.Outcome.next ?_
  case add | sub | mul | cmp =>
    simp only [sourceHandler, afterHandler_indexOrCause, afterHandler_addOperandCount]
    rfl
  case div | mod =>
    simp only [sourceHandler, afterHandler_indexOrCause, apply_ite (afterHandler s), afterHandler_throw,
      afterHandler_addOperandCount]
    rfl
  case push | pop | ldi | prn =>
    simp only [sourceHandler, afterHandler_indexOrCause, afterHandler_addOperandCount]
  case call => simp only [sourceHandler, afterHandler_indexOrCause, afterHandler_redirectTo]
  case jmp =>
    simp only [sourceHandler, afterHandler_indexOrCause, afterHandler_redirectTo]
    rfl
  case jeq | jne =>
    simp only [sourceHandler, apply_ite (afterHandler s), afterHandler_indexOrCause, afterHandler_redirectTo,
      afterHandler_addOperandCount]
    rfl
  case ret => exact State.eq_of_fields rfl rfl (BitVec.sub_add_cancel _ 1#8).symm rfl rfl rfl
  case hlt => rfl

end Sys2Proof.Machine
end
